-- ==== Sys2Proof/Word.lean ====
section
/-! DEFINITION. The widths of the FQW-SIG responder core (spec/00_scope.md R9) and the plain data type of its
register store (spec/20_memory.md R50: the unit is one 16-bit cell, there is no byte memory). -/

namespace Sys2Proof

/-- One transport unit: 8 bits (R10). The unit address and the operation code "are each a single byte" (R9). -/
abbrev Byte := BitVec 8

/-- A register cell, an address, a quantity, a value or a checksum: 16 bits (R9). -/
abbrev Word := BitVec 16

/-- The contents of the register store `x` (spec/10_state.md R21) as pairs (cell number, value): cell numbers
strictly rising, and no pair whose value is what an unlisted cell reads as (`Memory.wf`). -/
abbrev Memory := List (Nat × Word)

/-- What a cell that is not listed reads as. It is a matter of representation only: the contents right after reset
are the parameter `P_REG_INIT` (R7, R36), itself such a list, and every table of N cells is exactly one well-formed
list. DESIGN CHOICE (log 20), safe. -/
def unlistedCell : Word := 0#16

end Sys2Proof
end

