-- ==== Sys2Proof/Config.lean ====
section
/-! DEFINITION. The implementation parameters of spec/00_scope.md R7, which "the model takes ... as arguments", the one
instance that `State.reset` names, and what the spec leaves to the environment of every instance: whose step comes next,
what a transport read gives, what a transport write gives. -/

namespace Sys2Proof

/-- The parameters of one instance of the core (R7; the control record `cfg` of spec/10_state.md R32 is among them).
Fixed for the instance: no rule writes any of them (R32, R33). -/
structure Config where
  /-- `P_UNIT_ADDRESS`, 1..255 (OPEN per instance). -/
  unitAddress : Byte
  /-- `P_REG_COUNT`, N, 256..65536 (OPEN per instance). -/
  regCount : Nat
  /-- `P_REG_INIT`, the cells' contents at reset (OPEN; the spec gives no values). -/
  regInit : Memory
  /-- `P_MAX_READ_QTY`, the largest read quantity. -/
  maxReadQty : Nat
  /-- `P_MAX_WRITE_QTY`, the largest write-multiple quantity. -/
  maxWriteQty : Nat
  /-- `P_FC_READ`. -/
  fcRead : Byte
  /-- `P_FC_WRITE_SINGLE`. -/
  fcWriteSingle : Byte
  /-- `P_FC_WRITE_MULTIPLE`. -/
  fcWriteMultiple : Byte
  /-- `P_EXC_FLAG`, the bit OR-ed into the code of an exception response. -/
  excFlag : Byte
  /-- `P_EXC_ILLEGAL_FUNCTION`. -/
  excIllegalFunction : Byte
  /-- `P_EXC_ILLEGAL_DATA_ADDRESS`. -/
  excIllegalDataAddress : Byte
  /-- `P_EXC_ILLEGAL_DATA_VALUE`. -/
  excIllegalDataValue : Byte
  /-- `P_CRC_POLY`, the checksum polynomial in normal form. -/
  crcPoly : Word
  /-- `P_CRC_INIT`, the checksum's initial value. -/
  crcInit : Word
  /-- `P_CRC_XOROUT`, the checksum's final XOR. -/
  crcXorOut : Word
  /-- `P_BUF_CAP`, the receive buffer's capacity in bytes. -/
  bufCap : Nat
  /-- `P_TIMEOUT`, in a unit the spec does not give (OPEN; no rule reads its value, R243). -/
  timeout : Nat
deriving DecidableEq, Repr

/-- The instance `State.reset` carries: every parameter that has a default in R7 at that default, and for the OPEN
parameters the instance of spec/95_test_vectors.md (unit 0x01, N = 256, every cell 0) with a timeout of 1.
DESIGN CHOICE (log 2, log 3), unsafe for a claim about the reset state alone; PRESUMED for 0x03, 0x10, the reason
bytes, the final XOR and 127, which the spec took from general knowledge (log 14). -/
def Config.standard : Config where
  unitAddress := 0x01#8
  regCount := 256
  regInit := []
  maxReadQty := 125
  maxWriteQty := 127
  fcRead := 0x03#8
  fcWriteSingle := 0x06#8
  fcWriteMultiple := 0x10#8
  excFlag := 0x80#8
  excIllegalFunction := 0x01#8
  excIllegalDataAddress := 0x02#8
  excIllegalDataValue := 0x03#8
  crcPoly := 0x8005#16
  crcInit := 0xFFFF#16
  crcXorOut := 0x0000#16
  bufCap := 264
  timeout := 1

/-! ### The environment's choices (spec/93_implementation_defined.md A6, A8, A9, A12, A13; log 4) -/

namespace Machine

/-- A host agent's call (spec/43_host_and_control.md R200, R201, R202, R204). -/
inductive HostCall where
  | hget (addr count : Word)
  | hset (addr value : Word)
  | hsetm (addr : Word) (values : List Word)
  | hstop
deriving DecidableEq, Repr

/-- Whose step it is (spec/43_host_and_control.md R210): one worker iteration, one host call, or one reset; or nobody's,
as when the one thing enabled is a worker whose transport read has not ended (R211; DESIGN CHOICE, log 21). -/
inductive Turn where
  | worker
  | host (call : HostCall)
  | reset
  | idle
deriving DecidableEq, Repr, Inhabited

/-- What one `ReadOneOrTimeout` gives (spec/43_host_and_control.md R205). -/
inductive RxUnit where
  | byte (b : Byte)
  | timeout
  | closed
deriving DecidableEq, Repr, Inhabited

/-- What one transport write gives (spec/42_operations.md R168): `TxOk`, or `TxFail(k)` with k bytes taken. -/
inductive TxResult where
  | ok
  | fail (k : Nat)
deriving DecidableEq, Repr, Inhabited

end Machine

/-- Whose turn the n-th turn is, where the state lists none: any sequence of turns, finite or endless, fair or not
(spec/43_host_and_control.md R210, R211). Nothing constrains it. Free value, log 4. -/
opaque Config.freeTurn : Nat → Machine.Turn

/-- What the n-th transport read gives, where the state lists nothing (spec/43_host_and_control.md R208). Nothing
constrains it. Free value, log 4. -/
opaque Config.freeUnit : Nat → Machine.RxUnit

/-- What the n-th transport write gives, where the state lists nothing (spec/42_operations.md R168). Nothing constrains it.
Free value, log 4. -/
opaque Config.freeResult : Nat → Machine.TxResult

end Sys2Proof
end

