-- ==== Sys2Proof/Machine/Operands.lean ====
section
/-! DEFINITION. Operand assembly: how 16-bit fields, register values and value lists stand as bytes (spec/00_scope.md
R11, spec/20_memory.md R55, R56, spec/30_encoding.md R81). Every operand form of the protocol is one of these: a single
byte, a big-endian field, or a run of big-endian values. Nothing is sign-extended, scaled or shifted (R81). -/

namespace Sys2Proof

/-- `be16(h, l) = h·256 + l` (R11). -/
def be16 (h l : Byte) : Word := h ++ l

/-- `hi8(v) = v[15:8]` (R11). -/
def hi8 (v : Word) : Byte := v.extractLsb' 8 8

/-- `lo8(v) = v[7:0]` (R11). -/
def lo8 (v : Word) : Byte := v.extractLsb' 0 8

/-- `BE(v) = [hi8(v), lo8(v)]` (R11). -/
def bigEndian (v : Word) : List Byte := [hi8 v, lo8 v]

/-- `BE(v0) ++ BE(v1) ++ ...`, the value bytes of R84 and R85. -/
def valueBytes : List Word → List Byte
  | [] => []
  | v :: vs => hi8 v :: lo8 v :: valueBytes vs

/-- The values a run of bytes carries: value k = `be16(d[2k], d[2k+1])` (R84). An odd last byte carries none. -/
def bytesValues : List Byte → List Word
  | h :: l :: ds => be16 h l :: bytesValues ds
  | _ => []

/-- The low 16 bits of a 32-bit value: the cell at the lower address in the callers' convention (spec/10_state.md
R35). -/
def lowWord (f : BitVec 32) : Word := f.extractLsb' 0 16

/-- The high 16 bits of a 32-bit value: the cell at the higher address (spec/10_state.md R35). -/
def highWord (f : BitVec 32) : Word := f.extractLsb' 16 16

end Sys2Proof
end

