-- ==== Sys2Proof/Machine/Checksum.lean ====
section
/-! DEFINITION. The Checksum Engine (spec/40_checksum.md): `crc16`, `Compute`, `Verify`, and `FRAME`
(spec/42_operations.md R165). All are pure functions of their arguments (R115). -/

namespace Sys2Proof

/-- One shift of the reflected CRC register (R110): `refl` is the polynomial with its 16 bits in reverse order,
0xA001 for 0x8005. -/
def crcShift (refl c : Word) : Word :=
  if c.getLsbD 0 then (c >>> 1) ^^^ refl else c >>> 1

/-- `n` shifts. -/
def crcShifts (refl : Word) : Nat → Word → Word
  | 0, c => c
  | n + 1, c => crcShifts refl n (crcShift refl c)

/-- One byte into the register: it enters at the low end and eight shifts follow (R110). -/
def crcByte (refl c : Word) (b : Byte) : Word :=
  crcShifts refl 8 (c ^^^ b.setWidth 16)

/-- `crc16(s)` (R110), with the polynomial, the initial value and the final XOR of the instance. -/
def crc16 (c : Config) (s : List Byte) : Word :=
  s.foldl (crcByte c.crcPoly.reverse) c.crcInit ^^^ c.crcXorOut

/-- `Compute(s) = [lo8(crc16(s)), hi8(crc16(s))]` (R111). -/
def compute (c : Config) (s : List Byte) : List Byte :=
  [lo8 (crc16 c s), hi8 (crc16 c s)]

/-- `Verify(f)` (R112): false below two bytes; else the checksum of all bytes but the last two equals the last two,
low byte first. -/
def verify (c : Config) (f : List Byte) : Bool :=
  if f.length < 2 then false
  else crc16 c (f.take (f.length - 2)) == be16 (f.getD (f.length - 1) 0) (f.getD (f.length - 2) 0)

/-- `FRAME(u, pdu) = [u] ++ pdu ++ Compute([u] ++ pdu)` (spec/42_operations.md R165, spec/30_encoding.md R94). -/
def frame (c : Config) (u : Byte) (pdu : List Byte) : List Byte :=
  u :: pdu ++ compute c (u :: pdu)

end Sys2Proof
end

