-- ==== Sys2Proof/Syntax.lean ====
section
/-! DEFINITION. The frames of spec/opcode_table.json as one inductive, one constructor per row, with the fields of
the row's format (spec/30_encoding.md R82 to R88). The checksum is no field: it is a function of the other bytes. -/

namespace Sys2Proof

/-- The three reasons of a protocol exception (spec/60_exceptions.md R232). Their byte values are parameters. -/
inductive Reason where
  | illegalFunction
  | illegalDataAddress
  | illegalDataValue
deriving DecidableEq, Repr

/-- The "direction" column of the opcode table: a frame the core receives, or a frame the core sends. A request and
its success response share their operation code, so a frame is read in a direction. -/
inductive Direction where
  | request
  | response
deriving DecidableEq, Repr

/-- The frames of the protocol, one constructor per row of the opcode table. -/
inductive Instr where
  /-- `RDH`, READ_HOLDING_REGISTERS: format REQ-RD (R82). -/
  | rdh (unit : Byte) (addr qty : Word)
  /-- `WSR`, WRITE_SINGLE_REGISTER: format REQ-WS (R83). -/
  | wsr (unit : Byte) (addr value : Word)
  /-- `WMR`, WRITE_MULTIPLE_REGISTERS: format REQ-WM (R84). `bc` is the byte-count as it stands at offset 6 and
  `data` the value bytes; the frame is sized by `bc`, not by `qty`. -/
  | wmr (unit : Byte) (addr qty : Word) (bc : Byte) (data : List Byte)
  /-- `ILLEGAL_FUNCTION`, any unsupported operation code (R91, R164): no format is defined, so what follows the code
  is kept as the uninterpreted payload of the general frame (R80). -/
  | illegalFunction (unit code : Byte) (payload : List Byte)
  /-- `R.RDH`, read response: format RSP-RD (R85), given by the register values it carries. -/
  | rRdh (values : List Word)
  /-- `R.WSR`, write single response, an echo: format RSP-WS (R86). -/
  | rWsr (addr value : Word)
  /-- `R.WMR`, write multiple response: format RSP-WM (R87). -/
  | rWmr (addr qty : Word)
  /-- `R.EXC`, exception response: format RSP-EXC (R88). `code` is byte 1 as it stands on the wire, the request's
  operation code with `P_EXC_FLAG` OR-ed in. -/
  | rExc (code : Byte) (reason : Reason)
deriving DecidableEq, Repr

/-- The direction of each row, as the opcode table gives it. -/
def Instr.direction : Instr → Direction
  | .rdh _ _ _ => .request
  | .wsr _ _ _ => .request
  | .wmr _ _ _ _ _ => .request
  | .illegalFunction _ _ _ => .request
  | .rRdh _ => .response
  | .rWsr _ _ => .response
  | .rWmr _ _ => .response
  | .rExc _ _ => .response

end Sys2Proof
end

