-- ==== Sys2Proof/WellFormed.lean ====
section
/-! DEFINITION. What counts as a well-formed register store, as a legal instance (spec/00_scope.md R8) and as a
well-formed frame (spec/30_encoding.md R82 to R91). -/

namespace Sys2Proof

/-- The canonical form of the register store: cell numbers strictly rising, and no pair whose value is what an
unlisted cell reads as. Equal stores are then equal lists. -/
abbrev Memory.wf (m : Memory) : Prop :=
  m.Pairwise (fun p q => p.1 < q.1) ∧ ∀ p ∈ m, p.2 ≠ unlistedCell

/-- Every listed cell exists: cells 0..N-1 exist and no others (spec/20_memory.md R51). -/
abbrev Memory.within (n : Nat) (m : Memory) : Prop :=
  ∀ p ∈ m, p.1 < n

/-- `SUPPORTED` (spec/30_encoding.md R90). -/
abbrev Config.supported (c : Config) (b : Byte) : Prop :=
  b = c.fcRead ∨ b = c.fcWriteSingle ∨ b = c.fcWriteMultiple

/-- The parameter constraints of R8, clause by clause, with the ranges of R7 and of spec/10_state.md R32:
the instance a model may take. "A model refuses an instance that breaks a constraint." -/
abbrev Config.legal (c : Config) : Prop :=
  c.unitAddress ≠ 0#8 ∧
  256 ≤ c.regCount ∧ c.regCount ≤ 65536 ∧
  (c.fcRead ≠ c.fcWriteSingle ∧ c.fcRead ≠ c.fcWriteMultiple ∧ c.fcWriteSingle ≠ c.fcWriteMultiple) ∧
  (c.fcRead.toNat < 0x80 ∧ c.fcWriteSingle.toNat < 0x80 ∧ c.fcWriteMultiple.toNat < 0x80) ∧
  (c.excIllegalFunction ≠ c.excIllegalDataAddress ∧ c.excIllegalFunction ≠ c.excIllegalDataValue ∧
    c.excIllegalDataAddress ≠ c.excIllegalDataValue) ∧
  c.maxReadQty ≤ 127 ∧ c.maxWriteQty ≤ 127 ∧
  9 + 255 ≤ c.bufCap ∧
  0 < c.timeout ∧
  c.regInit.wf ∧ c.regInit.within c.regCount

/-- The checks a frame must meet to be one of this responder's frames. A request names this unit (spec/41_frame_assembler.md
R131; spec/30_encoding.md R96). `wmr`: the value bytes are as many as the byte-count says (R84). `illegalFunction`: the
code is outside `SUPPORTED` (R91). `rRdh`: one to `P_MAX_READ_QTY` values (R85, R93). `rExc`: `P_EXC_FLAG` is set in
the code byte (R88) and the byte is no success response's code. -/
def Instr.wellFormed (c : Config) : Instr → Bool
  | .rdh unit _ _ => decide (unit = c.unitAddress)
  | .wsr unit _ _ => decide (unit = c.unitAddress)
  | .wmr unit _ _ bc data => decide (unit = c.unitAddress) && decide (data.length = bc.toNat)
  | .illegalFunction unit code _ => decide (unit = c.unitAddress) && decide (¬ c.supported code)
  | .rRdh values => decide (1 ≤ values.length) && decide (values.length ≤ c.maxReadQty)
  | .rWsr _ _ => true
  | .rWmr _ _ => true
  | .rExc code _ => decide (code ||| c.excFlag = code) && decide (¬ c.supported code)

end Sys2Proof
end

