-- ==== Sys2Proof/Decode.lean ====
section
/-! DEFINITION. Frames from bytes and bytes from frames (spec/30_encoding.md), and the length determination the
assembler uses (R89). Decoding is total on any bytes and rejects by name. -/

namespace Sys2Proof

/-- Why a byte sequence is no frame of the protocol in the direction asked for. -/
inductive DecodeError where
  /-- Fewer than the 4 bytes of the minimum viable frame (R80). -/
  | tooShort
  /-- The payload has not the length its operation code gives it (R89, R93). -/
  | badLength
  /-- The trailing two bytes are not the checksum of the bytes before (spec/40_checksum.md R112). -/
  | checksumMismatch
  /-- A response whose address byte is not this responder's (R96). -/
  | addressMismatch
  /-- A response whose code is neither a success code nor has `P_EXC_FLAG` set (R85 to R88). -/
  | unknownResponseCode
  /-- A read response whose byte-count is not 2·q with q in 1..`P_MAX_READ_QTY` (R85). -/
  | badByteCount
  /-- An exception response whose reason byte is none of the three (spec/60_exceptions.md R232). -/
  | badReason
deriving DecidableEq, Repr

/-! ### Length determination (spec/30_encoding.md §4) -/

/-- What `ExpectedLen` answers when it is defined: a known length, or that the byte-count has not arrived. -/
inductive FrameLen where
  | known (n : Nat)
  | unknown
deriving DecidableEq, Repr

/-- `ExpectedLen(buf)` (R89). `none` where R89 does not define it: fewer than two bytes, or a code outside
`SUPPORTED`. -/
def expectedLen (c : Config) (buf : List Byte) : Option FrameLen :=
  match buf with
  | _ :: fc :: rest =>
    if fc = c.fcRead ∨ fc = c.fcWriteSingle then some (.known 8)
    else if fc = c.fcWriteMultiple then
      match rest with
      | _ :: _ :: _ :: _ :: bc :: _ => some (.known (9 + bc.toNat))
      | _ => some .unknown
    else none
  | _ => none

/-! ### Decoding -/

/-- The reason a reason byte stands for (spec/60_exceptions.md R232). -/
def reasonOfByte (c : Config) (b : Byte) : Option Reason :=
  if b = c.excIllegalFunction then some .illegalFunction
  else if b = c.excIllegalDataAddress then some .illegalDataAddress
  else if b = c.excIllegalDataValue then some .illegalDataValue
  else none

/-- The byte of a reason (spec/60_exceptions.md R232). -/
def reasonByte (c : Config) : Reason → Byte
  | .illegalFunction => c.excIllegalFunction
  | .illegalDataAddress => c.excIllegalDataAddress
  | .illegalDataValue => c.excIllegalDataValue

/-- A frame cut into its address byte and its PDU, the operation code plus payload (R80). `none` below the minimum
viable length of 4 bytes. -/
def splitFrame (f : List Byte) : Option (Byte × List Byte) :=
  match f with
  | u :: rest => if 3 ≤ rest.length then some (u, rest.take (rest.length - 2)) else none
  | [] => none

/-- The request a PDU holds, by its operation code (R82, R83, R84, R90, R91): the operands as
spec/42_operations.md R161 to R164 decode them. -/
def parseRequest (c : Config) (unit : Byte) (pdu : List Byte) : Except DecodeError Instr :=
  match pdu with
  | [] => .error .tooShort
  | fc :: rest =>
    if fc = c.fcRead then
      match rest with
      | [a1, a0, q1, q0] => .ok (.rdh unit (be16 a1 a0) (be16 q1 q0))
      | _ => .error .badLength
    else if fc = c.fcWriteSingle then
      match rest with
      | [a1, a0, v1, v0] => .ok (.wsr unit (be16 a1 a0) (be16 v1 v0))
      | _ => .error .badLength
    else if fc = c.fcWriteMultiple then
      match rest with
      | a1 :: a0 :: q1 :: q0 :: bc :: data =>
        if data.length = bc.toNat then .ok (.wmr unit (be16 a1 a0) (be16 q1 q0) bc data)
        else .error .badLength
      | _ => .error .badLength
    else .ok (.illegalFunction unit fc rest)

/-- The response a PDU holds, by its operation code (R85 to R88). -/
def parseResponse (c : Config) (unit : Byte) (pdu : List Byte) : Except DecodeError Instr :=
  match pdu with
  | [] => .error .tooShort
  | fc :: rest =>
    if unit ≠ c.unitAddress then .error .addressMismatch
    else if fc = c.fcRead then
      match rest with
      | bc :: data =>
        if data.length ≠ bc.toNat then .error .badLength
        else if bc.toNat % 2 = 0 ∧ 1 ≤ bc.toNat / 2 ∧ bc.toNat / 2 ≤ c.maxReadQty then
          .ok (.rRdh (bytesValues data))
        else .error .badByteCount
      | _ => .error .badLength
    else if fc = c.fcWriteSingle then
      match rest with
      | [a1, a0, v1, v0] => .ok (.rWsr (be16 a1 a0) (be16 v1 v0))
      | _ => .error .badLength
    else if fc = c.fcWriteMultiple then
      match rest with
      | [a1, a0, q1, q0] => .ok (.rWmr (be16 a1 a0) (be16 q1 q0))
      | _ => .error .badLength
    else if fc ||| c.excFlag = fc then
      match rest with
      | [b] =>
        match reasonOfByte c b with
        | some r => .ok (.rExc fc r)
        | none => .error .badReason
      | _ => .error .badLength
    else .error .unknownResponseCode

/-- The PDU of a frame read in a direction. -/
def parsePdu (c : Config) : Direction → Byte → List Byte → Except DecodeError Instr
  | .request, unit, pdu => parseRequest c unit pdu
  | .response, unit, pdu => parseResponse c unit pdu

/-- The frame a byte sequence is, in a direction: first its length, then its checksum (the order of
spec/60_exceptions.md R236). The unit address of a request is an operand: the assembler, not the decoder, keeps
other units' frames away (spec/41_frame_assembler.md R131, R132). -/
def decode (c : Config) (d : Direction) (f : List Byte) : Except DecodeError Instr :=
  match splitFrame f with
  | none => .error .tooShort
  | some (unit, pdu) =>
    match parsePdu c d unit pdu with
    | .error e => .error e
    | .ok i => if verify c f then .ok i else .error .checksumMismatch

/-! ### Encoding -/

/-- The PDU of each frame, byte by byte as its format lists it (R82 to R88). -/
def pdu (c : Config) : Instr → List Byte
  | .rdh _ addr qty => c.fcRead :: bigEndian addr ++ bigEndian qty
  | .wsr _ addr value => c.fcWriteSingle :: bigEndian addr ++ bigEndian value
  | .wmr _ addr qty bc data => c.fcWriteMultiple :: bigEndian addr ++ bigEndian qty ++ bc :: data
  | .illegalFunction _ code payload => code :: payload
  | .rRdh values => c.fcRead :: BitVec.ofNat 8 (2 * values.length) :: valueBytes values
  | .rWsr addr value => c.fcWriteSingle :: bigEndian addr ++ bigEndian value
  | .rWmr addr qty => c.fcWriteMultiple :: bigEndian addr ++ bigEndian qty
  | .rExc code reason => [code, reasonByte c reason]

/-- Byte 0 of each frame: a request's unit; `P_UNIT_ADDRESS` for every response (R96). -/
def addressByte (c : Config) : Instr → Byte
  | .rdh unit _ _ => unit
  | .wsr unit _ _ => unit
  | .wmr unit _ _ _ _ => unit
  | .illegalFunction unit _ _ => unit
  | .rRdh _ => c.unitAddress
  | .rWsr _ _ => c.unitAddress
  | .rWmr _ _ => c.unitAddress
  | .rExc _ _ => c.unitAddress

/-- The bytes of a frame, checksum included (R80, R94). -/
def encode (c : Config) (i : Instr) : List Byte :=
  frame c (addressByte c i) (pdu c i)

/-! ### The words of spec/opcode_table.json

The table numbers a row's bits from byte 1 of the frame ("match_byte_offset": 1), the operation code: bits 7..0 are
byte 1, bits 15..8 byte 2, and so on. Byte 0 is the unit address, which the table gives no bits, and the checksum is
what `FRAME` appends to the bytes before it (R94) where the bits given do not reach it. DEDUCED (log 12). -/

/-- `n` bytes of a number, the least significant first. -/
def wordBytes : Nat → Nat → List Byte
  | 0, _ => []
  | n + 1, w => BitVec.ofNat 8 w :: wordBytes n (w / 256)

/-- How many bytes of PDU the table's word stands for: 5 for REQ-RD and REQ-WS, 6 and the byte-count for REQ-WM
(R82, R83, R84), the bytes given for any other code, which has no length (R91). -/
def tablePduLen (c : Config) (nbits w : Nat) : Nat :=
  let fc : Byte := BitVec.ofNat 8 w
  if fc = c.fcRead ∨ fc = c.fcWriteSingle then 5
  else if fc = c.fcWriteMultiple then 6 + w / 256 ^ 5 % 256
  else max 1 ((nbits + 7) / 8)

/-- The frame whose bits from byte 1 on are those of `w`, addressed to this unit. -/
def tableFrame (c : Config) (nbits w : Nat) : List Byte :=
  let v := w % 2 ^ nbits
  let n := tablePduLen c nbits v
  let body := wordBytes n v
  if nbits ≤ 8 * n then frame c c.unitAddress body
  else c.unitAddress :: body ++ wordBytes 2 (v / 256 ^ n)

/-- The instruction the decoder reads from the frame of an opcode-table word, at the instance of `State.reset`. The
core decodes what it receives, so a word is read as a request (log 12). -/
def decodeTableWord (nbits w : Nat) : Option Instr :=
  match decode Config.standard .request (tableFrame Config.standard nbits w) with
  | .ok i => some i
  | .error _ => none

end Sys2Proof
end

