-- ==== Sys2Proof/Machine/State.lean ====
section
/-! DEFINITION. The machine state (spec/10_state.md R20) and the reasons a step can stop. Plain data throughout. -/

namespace Sys2Proof.Machine

/-! ### The spec's state components -/

/-- `st` (spec/10_state.md R23). The source's `ReadyToValidate`, `Dispatch` and `Discard` are passed through inside one
step, so no step starts or ends in them. -/
inductive AsmState where
  | awaitAddress
  | awaitOperationCode
  | accumulating
deriving DecidableEq, Repr

/-- `run` (spec/10_state.md R26). -/
inductive RunStatus where
  | running
  | stopped
  | linkFailed
deriving DecidableEq, Repr

/-- The kinds of framing error that a byte pattern can produce (spec/41_frame_assembler.md R140; spec/60_exceptions.md
R233). "Bad length" has no trigger (spec/90_conflicts.md C4). -/
inductive DiscardKind where
  | addressMismatch
  | unsupportedCode
  | checksumMismatch
deriving DecidableEq, Repr

/-- The parsed request record (spec/42_operations.md R170). -/
inductive Request where
  | readReq (unit fc : Byte) (addr qty : Word)
  | writeOneReq (unit fc : Byte) (addr value : Word)
  | writeManyReq (unit fc : Byte) (addr qty : Word) (values : List Word)
deriving DecidableEq, Repr

/-- An entry of the event log `evlog` (spec/10_state.md R28). -/
inductive LogEntry where
  /-- A parsed request was answered with a success response (spec/42_operations.md R169). -/
  | notify (req : Request)
  /-- A protocol exception was answered (spec/42_operations.md R166): the request's operation code and the reason. -/
  | protoExc (fc : Byte) (reason : Reason)
  /-- A framing error (spec/41_frame_assembler.md R140). -/
  | discard (kind : DiscardKind)
deriving DecidableEq, Repr

/-- The typed result of a store operation (spec/20_memory.md §2): `Ok`, or `OutOfRange`, "a typed result, not a
trap" (R52). -/
inductive StoreResult (α : Type) where
  | ok (value : α)
  | outOfRange
deriving DecidableEq, Repr

/-! ### What the hosts are handed -/

/-- What a host caller was handed (spec/43_host_and_control.md R200 to R202): the cells of a read, a write's `Ok`, or
`OutOfRange`. -/
inductive HostResult where
  | cells (values : List Word)
  | done
  | outOfRange
deriving DecidableEq, Repr

/-! ### State -/

/-- The machine state. The first seven fields after `cfg` are the components of spec/10_state.md R20, under its names
(`stopReq` is `stop_req`). `cfg` is the instance's parameters, which no step writes (R32; log 1). The last seven are the
model's own: of each of the environment's three sequences of choices the ones listed to come and how many are taken, and
the results already handed to host callers (log 4, log 7). -/
structure State where
  /-- The parameters of the instance (spec/00_scope.md R7, spec/10_state.md R32). -/
  cfg : Config
  /-- `x`: the holding registers (R21). -/
  x : Memory
  /-- `st`: the assembler's state (R23). -/
  st : AsmState
  /-- `buf`: the receive buffer (R24). -/
  buf : List Byte
  /-- `tx`: the transmit stream (R25). -/
  tx : List Byte
  /-- `run`: the run status (R26). -/
  run : RunStatus
  /-- `stop_req`: the stop request (R27). -/
  stopReq : Bool
  /-- `evlog`: the event log (R28). -/
  evlog : List LogEntry
  /-- Whose turns come next (spec/43_host_and_control.md R210); none listed: the free value of `turnCount` (log 4). -/
  turns : List Turn
  /-- What the transport reads will give (R208); none listed: the free value of `rxCount` (log 4). -/
  rx : List RxUnit
  /-- What the transport writes will give (spec/42_operations.md R168); none listed: the free value of `txCount`
  (log 4). -/
  txResults : List TxResult
  /-- What host callers were handed, in order (spec/43_host_and_control.md R213); read by no rule. -/
  hostResults : List HostResult
  /-- How many turns were taken. -/
  turnCount : Nat
  /-- How many transport reads were answered. -/
  rxCount : Nat
  /-- How many transport writes were answered. -/
  txCount : Nat
deriving DecidableEq, Repr

/-! ### Stops -/

/-- Why the machine stops. The spec has no fault: every error of spec/60_exceptions.md R230 is a next state. Both
reasons arise only in states no run reaches, where the rules give the assembler no meaning (log 9). -/
inductive Fault where
  /-- Raised by the worker's byte step in `Accumulating` when `ExpectedLen` is not defined for the buffer
  (spec/30_encoding.md R89: fewer than two bytes, or a code outside `SUPPORTED`), which spec/10_state.md R29 rules out.
  Safe. -/
  | lengthUndefined
  /-- Raised by the worker's byte step when it would append to a buffer that holds `P_BUF_CAP` bytes
  (spec/10_state.md R24), which spec/41_frame_assembler.md R142 rules out. Safe. -/
  | bufferFull
deriving DecidableEq, Repr

/-- Why the machine gives a step no meaning. -/
inductive Refusal where
  /-- An instruction that has no meaning yet, by its mnemonic. Raised by no arm of `exec`. Safe. -/
  | notModelled (mnemonic : String)
  /-- Raised by `step` on a state whose instance breaks a parameter constraint: "A model refuses an instance that
  breaks a constraint" (spec/00_scope.md R8). Safe. -/
  | illegalInstance
deriving DecidableEq, Repr

/-- The machine right after reset (spec/10_state.md R36, spec/70_reset_and_hazards.md R260, R261), at the instance
`Config.standard`, with none of the environment's choices listed or taken yet. -/
def State.reset : State where
  cfg := Config.standard
  x := Config.standard.regInit
  st := .awaitAddress
  buf := []
  tx := []
  run := .running
  stopReq := false
  evlog := []
  turns := []
  rx := []
  txResults := []
  hostResults := []
  turnCount := 0
  rxCount := 0
  txCount := 0

end Sys2Proof.Machine
end

