-- ==== Sys2Proof/Machine/Flags.lean ====
section
/-! DEFINITION. Run status and stop request, the only flags of the machine (spec/10_state.md R26, R27, R31: no
operation sets or reads any other; there are no condition codes). -/

namespace Sys2Proof.Machine

/-- A worker step is enabled only in `Running` (R26; spec/43_host_and_control.md R205). -/
def workerEnabled (s : State) : Bool :=
  s.run == .running

/-- The host's stop call sets the flag; setting it again has no further effect (spec/43_host_and_control.md R204). -/
def setStopRequest (s : State) : State :=
  { s with stopReq := true }

/-- The cooperative stop (spec/43_host_and_control.md R205): the read is not made. -/
def stopWorker (s : State) : State :=
  { s with run := .stopped }

/-- A transport error, "fatal to the worker" (spec/43_host_and_control.md R207, spec/42_operations.md R168). -/
def failLink (s : State) : State :=
  { s with run := .linkFailed }

end Sys2Proof.Machine
end

