-- ==== Sys2Proof/Machine/Ops.lean ====
section
/-! DEFINITION. The named operations every meaning is built from: the register store and its three operations
(spec/20_memory.md), the transmit stream and `Send` (spec/42_operations.md R167, R168), the event log, taking a protocol
exception (R166), answering a request (R160, R169), and the assembler's buffer operations (spec/41_frame_assembler.md). -/

namespace Sys2Proof

/-! ### The register store -/

/-- `x[a]`: the value of one cell (spec/00_scope.md R12). -/
def Memory.read : Memory → Nat → Word
  | [], _ => unlistedCell
  | (b, w) :: r, a => if b = a then w else Memory.read r a

/-- A pair put in front of a list, unless it says what an unlisted cell reads as anyway. -/
def Memory.put (a : Nat) (v : Word) (r : Memory) : Memory :=
  if v = unlistedCell then r else (a, v) :: r

/-- `x[a] <- v`: one cell written (spec/00_scope.md R12), keeping the canonical form. -/
def Memory.write : Memory → Nat → Word → Memory
  | [], a, v => Memory.put a v []
  | (b, w) :: r, a, v =>
    if a < b then Memory.put a v ((b, w) :: r)
    else if a = b then Memory.put a v r
    else (b, w) :: Memory.write r a v

/-- `[x[a], x[a+1], ..., x[a+n-1]]`, in ascending address order (spec/20_memory.md R52). -/
def Memory.readMany (m : Memory) : Nat → Nat → List Word
  | _, 0 => []
  | a, n + 1 => m.read a :: Memory.readMany m (a + 1) n

/-- `for i in 0 .. len(vs)-1: x[a+i] <- vs[i]` (spec/20_memory.md R54). -/
def Memory.writeMany : Memory → Nat → List Word → Memory
  | m, _, [] => m
  | m, a, v :: vs => Memory.writeMany (m.write a v) (a + 1) vs

end Sys2Proof

namespace Sys2Proof.Machine

/-- `StoreRead(a, c)` (spec/20_memory.md R52). Sums are over the naturals and never wrap (spec/00_scope.md R10). -/
def storeRead (cfg : Config) (m : Memory) (a c : Word) : StoreResult (List Word) :=
  if c.toNat = 0 ∨ cfg.maxReadQty < c.toNat ∨ cfg.regCount < a.toNat + c.toNat then .outOfRange
  else .ok (m.readMany a.toNat c.toNat)

/-- `StoreWriteOne(a, v)` (spec/20_memory.md R53). -/
def storeWriteOne (cfg : Config) (m : Memory) (a v : Word) : StoreResult Memory :=
  if cfg.regCount < a.toNat + 1 then .outOfRange else .ok (m.write a.toNat v)

/-- `StoreWriteMany(a, vs)` (spec/20_memory.md R54). -/
def storeWriteMany (cfg : Config) (m : Memory) (a : Word) (vs : List Word) : StoreResult Memory :=
  if cfg.regCount < a.toNat + vs.length then .outOfRange else .ok (m.writeMany a.toNat vs)

/-! ### Transmit stream and event log -/

/-- `emit(s)`: the bytes appended to `tx`, in order, as one write (spec/42_operations.md R167). -/
def emit (bs : List Byte) (s : State) : State :=
  { s with tx := s.tx ++ bs }

/-- `log(e)` (spec/00_scope.md R12, spec/10_state.md R28). -/
def logEvent (e : LogEntry) (s : State) : State :=
  { s with evlog := s.evlog ++ [e] }

/-- The environment's choice for the next transport write (spec/42_operations.md R168): the next one listed, a free value
when none is (log 4). -/
def nextResult (s : State) : TxResult :=
  s.txResults.headD (Config.freeResult s.txCount)

/-- The state once a transport write was answered. -/
def resultTaken (s : State) : State :=
  { s with txResults := s.txResults.tail, txCount := s.txCount + 1 }

/-- What of a response a failed write leaves on the line: the first k bytes, a proper prefix (R168 has
k < len(resp); a listed k at or above it counts as len(resp) - 1, DESIGN CHOICE, log 5). -/
def failedPrefix (k : Nat) (resp : List Byte) : List Byte :=
  resp.take (min k (resp.length - 1))

/-- `Send(resp)` (spec/42_operations.md R168); the Bool says `Sent`. -/
def send (resp : List Byte) (s : State) : Bool × State :=
  match nextResult s with
  | .ok => (true, emit resp (resultTaken s))
  | .fail k => (false, failLink (emit (failedPrefix k resp) (resultTaken s)))

/-- A response frame sent: built with the checksum and the address prefix wired around its PDU, the address byte being
`P_UNIT_ADDRESS` (R165; spec/40_checksum.md R117; spec/30_encoding.md R96). -/
def sendPdu (pdu : List Byte) (s : State) : Bool × State :=
  send (frame s.cfg s.cfg.unitAddress pdu) s

/-- A success response: sent, and after it was fully sent the parsed request notified (spec/42_operations.md R160,
R169). No notification follows a transmit failure. -/
def answer (pdu : List Byte) (req : Request) (s : State) : State :=
  match sendPdu pdu s with
  | (true, s') => logEvent (.notify req) s'
  | (false, s') => s'

/-- Taking a protocol exception (spec/42_operations.md R166): `ProtoExc(fc, reason)` is logged, then the exception
frame with byte 1 = `fc | P_EXC_FLAG` and the reason byte is sent. No register changes and no notification follows.
There is no return from it: nothing is saved and the worker carries on reading (spec/60_exceptions.md R238, R239). -/
def protocolException (fc : Byte) (reason : Reason) (s : State) : State :=
  (sendPdu (pdu s.cfg (.rExc (fc ||| s.cfg.excFlag) reason)) (logEvent (.protoExc fc reason) s)).2

/-! ### The assembler's buffer -/

/-- The candidate frame dropped or done: `buf <- []`, `st <- AwaitAddress` (spec/41_frame_assembler.md R137, R140). -/
def clearFrame (s : State) : State :=
  { s with buf := [], st := .awaitAddress }

/-- `discard(kind)` (spec/41_frame_assembler.md R140): nothing emitted, no register touched. -/
def discard (kind : DiscardKind) (s : State) : State :=
  logEvent (.discard kind) (clearFrame s)

/-- `buf <- buf ++ [b]`, within the buffer's capacity (spec/10_state.md R24); `none` at `P_BUF_CAP` bytes, which
spec/41_frame_assembler.md R142 says never happens (log 9). -/
def appendByte (b : Byte) (s : State) : Option State :=
  if s.buf.length < s.cfg.bufCap then some { s with buf := s.buf ++ [b] } else none

end Sys2Proof.Machine
end

