-- ==== Sys2Proof/Machine/Requests.lean ====
section
/-! DEFINITION. The meanings of the four request rows: the handlers of the Operation Dispatcher (spec/42_operations.md
R160 to R164), each with the one response it sends. Operands are as decoded from the frame; every store access happens
before the response is sent (R160). -/

namespace Sys2Proof.Machine

/-- `RDH` (R161): IllegalDataValue for a quantity outside 1..`P_MAX_READ_QTY`, else IllegalDataAddress past the last
cell, else the cells' values. The store call cannot fail after those checks (R171); its `OutOfRange` is
IllegalDataAddress at the protocol layer (spec/20_memory.md R51; log 19). -/
def execRdh (unit : Byte) (addr qty : Word) (s : State) : Host.Outcome State Fault Refusal :=
  let fc := s.cfg.fcRead
  if qty.toNat < 1 ∨ s.cfg.maxReadQty < qty.toNat then
    .next (protocolException fc .illegalDataValue s)
  else if s.cfg.regCount < addr.toNat + qty.toNat then
    .next (protocolException fc .illegalDataAddress s)
  else
    match storeRead s.cfg s.x addr qty with
    | .ok vs => .next (answer (pdu s.cfg (.rRdh vs)) (.readReq unit fc addr qty) s)
    | .outOfRange => .next (protocolException fc .illegalDataAddress s)

/-- `WSR` (R162): IllegalDataAddress for a cell that does not exist, else the cell is written and the request echoed.
Every 16-bit value is legal. The store call cannot fail after the check (R171; log 19). -/
def execWsr (unit : Byte) (addr value : Word) (s : State) : Host.Outcome State Fault Refusal :=
  let fc := s.cfg.fcWriteSingle
  if s.cfg.regCount ≤ addr.toNat then
    .next (protocolException fc .illegalDataAddress s)
  else
    match storeWriteOne s.cfg s.x addr value with
    | .ok m => .next (answer (pdu s.cfg (.rWsr addr value)) (.writeOneReq unit fc addr value) { s with x := m })
    | .outOfRange => .next (protocolException fc .illegalDataAddress s)

/-- `WMR` (R163): IllegalDataValue for a quantity outside 1..`P_MAX_WRITE_QTY` or a byte-count other than 2·q, else
IllegalDataAddress past the last cell, else all the values are written in one step and address and quantity echoed. The
store call cannot fail after those checks (R171; log 19). -/
def execWmr (unit : Byte) (addr qty : Word) (bc : Byte) (data : List Byte) (s : State) :
    Host.Outcome State Fault Refusal :=
  let fc := s.cfg.fcWriteMultiple
  if qty.toNat < 1 ∨ s.cfg.maxWriteQty < qty.toNat ∨ bc.toNat ≠ 2 * qty.toNat then
    .next (protocolException fc .illegalDataValue s)
  else if s.cfg.regCount < addr.toNat + qty.toNat then
    .next (protocolException fc .illegalDataAddress s)
  else
    let vs := (bytesValues data).take qty.toNat
    match storeWriteMany s.cfg s.x addr vs with
    | .ok m => .next (answer (pdu s.cfg (.rWmr addr qty)) (.writeManyReq unit fc addr qty vs) { s with x := m })
    | .outOfRange => .next (protocolException fc .illegalDataAddress s)

/-- `ILLEGAL_FUNCTION` (R164): the dispatcher's arm for every other code, taken on a whole frame. No byte stream reaches
it, since the assembler discards the code first (spec/41_frame_assembler.md R133; spec/90_conflicts.md C1). Unit and
payload are not looked at (log 10). -/
def execIllegalFunction (_unit code : Byte) (_payload : List Byte) (s : State) : Host.Outcome State Fault Refusal :=
  .next (protocolException code .illegalFunction s)

end Sys2Proof.Machine
end

