-- ==== Sys2Proof/Machine/Responses.lean ====
section
/-! DEFINITION. The meanings of the four response rows: the Response Builder (spec/42_operations.md R165 to R168). A
response frame's effect on this core is that the core builds and sends it: DEDUCED (log 11). The request meanings send
the same PDUs through the same operation and add the log entries of R166 and R169. -/

namespace Sys2Proof.Machine

/-- `R.RDH` (spec/30_encoding.md R85): byte-count and register values. -/
def execRRdh (values : List Word) (s : State) : Host.Outcome State Fault Refusal :=
  .next (sendPdu (pdu s.cfg (.rRdh values)) s).2

/-- `R.WSR` (spec/30_encoding.md R86): the echo of address and value. -/
def execRWsr (addr value : Word) (s : State) : Host.Outcome State Fault Refusal :=
  .next (sendPdu (pdu s.cfg (.rWsr addr value)) s).2

/-- `R.WMR` (spec/30_encoding.md R87): the echo of address and quantity. -/
def execRWmr (addr qty : Word) (s : State) : Host.Outcome State Fault Refusal :=
  .next (sendPdu (pdu s.cfg (.rWmr addr qty)) s).2

/-- `R.EXC` (spec/30_encoding.md R88): the code byte with `P_EXC_FLAG` set, and the reason byte. -/
def execRExc (code : Byte) (reason : Reason) (s : State) : Host.Outcome State Fault Refusal :=
  .next (sendPdu (pdu s.cfg (.rExc code reason)) s).2

end Sys2Proof.Machine
end

