-- ==== Sys2Proof/Machine/Dispatch.lean ====
section
/-! DEFINITION. One arm per constructor of `Instr`. -/

namespace Sys2Proof.Machine

def exec (i : Instr) (s : State) : Host.Outcome State Fault Refusal :=
  match i with
  | .rdh unit addr qty => Sys2Proof.Machine.execRdh unit addr qty s
  | .wsr unit addr value => Sys2Proof.Machine.execWsr unit addr value s
  | .wmr unit addr qty bc data => Sys2Proof.Machine.execWmr unit addr qty bc data s
  | .illegalFunction unit code payload => Sys2Proof.Machine.execIllegalFunction unit code payload s
  | .rRdh values => Sys2Proof.Machine.execRRdh values s
  | .rWsr addr value => Sys2Proof.Machine.execRWsr addr value s
  | .rWmr addr qty => Sys2Proof.Machine.execRWmr addr qty s
  | .rExc code reason => Sys2Proof.Machine.execRExc code reason s

end Sys2Proof.Machine
end

