-- ==== Sys2Proof/Machine/Assembler.lean ====
section
/-! DEFINITION. The Frame Assembler (spec/41_frame_assembler.md): the worker's byte step. -/

namespace Sys2Proof.Machine

/-- Completion returns to the start (R137): after the frame's validation and dispatch, `buf <- []` and
`st <- AwaitAddress`, whatever the dispatch came to. -/
def endFrame : Host.Outcome State Fault Refusal → Host.Outcome State Fault Refusal
  | .next s => .next (clearFrame s)
  | .fault r => .fault r
  | .refused r => .refused r

/-- A complete candidate frame (R137, R138, R139): with a good checksum it is dispatched (spec/42_operations.md R160:
the handler is the one its operation code selects), else discarded. A complete frame has the length its code gives it,
so decoding it fails only where `Verify` does. -/
def completeFrame (s : State) : Host.Outcome State Fault Refusal :=
  match decode s.cfg .request s.buf with
  | .ok i => endFrame (exec i s)
  | .error _ => .next (discard .checksumMismatch s)

/-- A byte in `AwaitAddress` (R131, R132). -/
def rxAwaitAddress (b : Byte) (s : State) : Host.Outcome State Fault Refusal :=
  if b = s.cfg.unitAddress then .next { s with buf := [b], st := .awaitOperationCode }
  else .next (discard .addressMismatch s)

/-- A byte in `AwaitOperationCode` (R133, R134). The offending byte of a discard is not tested again as an address
byte. -/
def rxAwaitOperationCode (b : Byte) (s : State) : Host.Outcome State Fault Refusal :=
  if s.cfg.supported b then
    match appendByte b s with
    | some s' => .next { s' with st := .accumulating }
    | none => .fault .bufferFull
  else .next (discard .unsupportedCode s)

/-- A byte in `Accumulating` (R135, R136): appended, and the length formula asked again; at exactly the expected length
the candidate frame is complete. -/
def rxAccumulating (b : Byte) (s : State) : Host.Outcome State Fault Refusal :=
  match appendByte b s with
  | none => .fault .bufferFull
  | some s' =>
    match expectedLen s'.cfg s'.buf with
    | none => .fault .lengthUndefined
    | some .unknown => .next s'
    | some (.known n) => if s'.buf.length = n then completeFrame s' else .next s'

/-- `RxByte(b)` (R130). -/
def rxByte (b : Byte) (s : State) : Host.Outcome State Fault Refusal :=
  match s.st with
  | .awaitAddress => rxAwaitAddress b s
  | .awaitOperationCode => rxAwaitOperationCode b s
  | .accumulating => rxAccumulating b s

end Sys2Proof.Machine
end

