-- ==== Sys2Proof/Machine/Worker.lean ====
section
/-! DEFINITION. The steps of the agents (spec/43_host_and_control.md): the worker's loop iteration, the host's calls, and
reset (spec/70_reset_and_hazards.md R260). -/

namespace Sys2Proof.Machine

/-- What `ReadOneOrTimeout()` gives (R205, R208): the next unit listed, a free value when none is (log 4). -/
def nextUnit (s : State) : RxUnit :=
  s.rx.headD (Config.freeUnit s.rxCount)

/-- The state once a transport read was answered: each unit is given exactly once and in order (R208). -/
def unitTaken (s : State) : State :=
  { s with rx := s.rx.tail, rxCount := s.rxCount + 1 }

/-- One loop iteration (R205). When the stop is requested the read is not made, so the unread units stay in the
transport; a timeout does nothing else (R206); a closed channel is a transport error (R207). An iteration is one step, its
read's end included; until the read ends the worker has no turn (R211; log 21). Outside `Running` no worker step is
enabled, and the worker's turn passes with nothing changed (DESIGN CHOICE, log 6). -/
def workerIteration (s : State) : Host.Outcome State Fault Refusal :=
  if workerEnabled s then
    if s.stopReq then .next (stopWorker s)
    else
      match nextUnit s with
      | .byte b => rxByte b (unitTaken s)
      | .timeout => .next (unitTaken s)
      | .closed => .next (failLink (unitTaken s))
  else .next s

/-- A result handed to the calling host agent (R200 to R202, R213). -/
def returnToHost (r : HostResult) (s : State) : State :=
  { s with hostResults := s.hostResults ++ [r] }

/-- `HGET a, c` (R200): the store's read, its 125-cell limit included. -/
def hostGet (addr count : Word) (s : State) : State :=
  match storeRead s.cfg s.x addr count with
  | .ok vs => returnToHost (.cells vs) s
  | .outOfRange => returnToHost .outOfRange s

/-- `HSET a, v` (R201). -/
def hostSet (addr value : Word) (s : State) : State :=
  match storeWriteOne s.cfg s.x addr value with
  | .ok m => returnToHost .done { s with x := m }
  | .outOfRange => returnToHost .outOfRange s

/-- `HSETM a, vs` (R202): all the cells in one step. -/
def hostSetMany (addr : Word) (values : List Word) (s : State) : State :=
  match storeWriteMany s.cfg s.x addr values with
  | .ok m => returnToHost .done { s with x := m }
  | .outOfRange => returnToHost .outOfRange s

/-- A host agent's call; it works in every run status (R203). -/
def hostStep (call : HostCall) (s : State) : State :=
  match call with
  | .hget addr count => hostGet addr count s
  | .hset addr value => hostSet addr value s
  | .hsetm addr values => hostSetMany addr values s
  | .hstop => setStopRequest s

/-- The reset step (spec/70_reset_and_hazards.md R260): every state component at its reset value (spec/10_state.md R36).
The instance, what the environment will still choose, and what host callers were already handed are no components of the
state and stay (log 7). -/
def resetStep (s : State) : State :=
  { s with x := s.cfg.regInit, st := .awaitAddress, buf := [], tx := [], run := .running, stopReq := false, evlog := [] }

/-- One step of the agent whose turn it is (R210); nobody's turn changes nothing. -/
def takeTurn (t : Turn) (s : State) : Host.Outcome State Fault Refusal :=
  match t with
  | .worker => workerIteration s
  | .host call => .next (hostStep call s)
  | .reset => .next (resetStep s)
  | .idle => .next s

/-- Whose turn is next (R210: any enabled step may come next): the next one listed, a free value when none is (log 4). So
neither fairness toward the worker nor an end of every read is built in: R211 and 93_implementation_defined.md A12 make
them assumptions, named in Sys2Proof/Safety.lean. -/
def nextTurn (s : State) : Turn :=
  s.turns.headD (Config.freeTurn s.turnCount)

/-- The state a turn is taken in: the turn used up. -/
def turnTaken (s : State) : State :=
  { s with turns := s.turns.tail, turnCount := s.turnCount + 1 }

/-- A frame placed where the worker's next step takes it up: all but its last byte in the receive buffer, the last byte
next on the line. A code outside `SUPPORTED` is taken up at byte 1, right after the address byte, since the assembler
never buffers it (spec/41_frame_assembler.md R133). The worker is running, its turn is next, and the write of the response
succeeds (log 13). -/
def placeFrame (f : List Byte) (s : State) : State :=
  let s' := { s with run := .running, stopReq := false, turns := .worker :: s.turns }
  if s.cfg.supported (f.getD 1 0) then
    { s' with st := .accumulating, buf := f.dropLast, rx := .byte (f.getLastD 0) :: s.rx, txResults := .ok :: s.txResults }
  else
    { s' with st := .awaitOperationCode, buf := [s.cfg.unitAddress], rx := .byte (f.getD 1 0) :: s.rx }

end Sys2Proof.Machine
end

