-- ==== Sys2Proof/Machine/Step.lean ====
section
/-! DEFINITION. One step of the machine: one worker iteration, one host call, one reset or nobody (spec/00_scope.md R13,
spec/43_host_and_control.md R210). -/

namespace Sys2Proof.Machine

/-- The step function. An instance that breaks a constraint of spec/00_scope.md R8 is refused (log 8). -/
def step (s : State) : Host.Outcome State Fault Refusal :=
  if s.cfg.legal then takeTurn (nextTurn s) (turnTaken s) else .refused .illegalInstance

/-- `s` with the frame of an opcode-table word where the next step completes it (log 13). -/
def State.withFetchWord (s : State) (nbits w : Nat) : State :=
  placeFrame (tableFrame s.cfg nbits w) s

end Sys2Proof.Machine
end

