-- ==== Sys2Proof/Safety.lean ====
section
/-! DEFINITION. What a claim about a run is stated in: the invariant of every state between steps, and the usual
conditions on a state before a step. -/

namespace Sys2Proof.Machine

/-- The frame in the buffer is not complete and never passes its length: `len(buf) < ExpectedLen` whenever the length is
known, and the byte-count has not arrived while it is not (spec/10_state.md R29; spec/41_frame_assembler.md R136). -/
def incomplete (c : Config) (buf : List Byte) : Bool :=
  match expectedLen c buf with
  | some (.known n) => decide (buf.length < n)
  | some .unknown => decide (buf.length < 7)
  | none => false

/-- The assembler's invariant (spec/10_state.md R29). In `Accumulating` byte 0 is the unit address too, since the
candidate frame was started by it (spec/41_frame_assembler.md R131). -/
def assemblerInv (s : State) : Bool :=
  match s.st with
  | .awaitAddress => decide (s.buf = [])
  | .awaitOperationCode => decide (s.buf = [s.cfg.unitAddress])
  | .accumulating =>
    decide (2 ≤ s.buf.length) && decide (s.buf.getD 0 0 = s.cfg.unitAddress) &&
      decide (s.cfg.supported (s.buf.getD 1 0)) && incomplete s.cfg s.buf

/-- The invariant of every state between steps: a legal instance, a register store in its canonical form that lists no
cell that does not exist, and the assembler's invariant. -/
abbrev Invariant (s : State) : Prop :=
  s.cfg.legal ∧ s.x.wf ∧ s.x.within s.cfg.regCount ∧ assemblerInv s = true

/-- The environment lets the next transport write succeed (spec/42_operations.md R168, `TxOk`). -/
def writeSucceeds (s : State) : Bool := nextResult s == .ok

/-- `s` after the frame of `i` was wholly sent: the bytes at the end of `tx`, the write's result used up. -/
def sent (i : Instr) (s : State) : State :=
  { resultTaken s with tx := s.tx ++ encode s.cfg i }

/-- An entry of the event log is a notification (spec/10_state.md R28). -/
def LogEntry.isNotify : LogEntry → Bool
  | .notify _ => true
  | .protoExc _ _ => false
  | .discard _ => false

/-- The turn that the k-th step from `s` takes, counting from 0: no step changes what later turns are. -/
def turnAt (s : State) (k : Nat) : Turn := (s.turns.drop k).headD (Config.freeTurn (s.turnCount + k))

/-- The progress assumption that a claim about an eventual stop has to name (spec/43_host_and_control.md R211): the worker
gets a turn, as weak fairness toward it and an end of every read give it one, and no reset comes before. -/
def WorkerStepsBeforeReset (s : State) : Prop :=
  ∃ k, turnAt s k = .worker ∧ ∀ j < k, turnAt s j ≠ .reset

end Sys2Proof.Machine
end

