-- ==== Sys2Proof/Certificates/Slice0/Obligations.lean ====
section
/-! DEFINITION. The statements for the provers. Each docstring names the rule of spec/ it formalises, and the log entry of
every choice of the model's own that it rests on. -/

open Sys2Proof Sys2Proof.Machine

/-! ### Checksum engine (spec/40_checksum.md) -/

/-- R116: the check value of the checksum, at the parameters' defaults. -/
def Obligations.Crc16CheckValue : Prop :=
  crc16 Config.standard [0x31#8, 0x32#8, 0x33#8, 0x34#8, 0x35#8, 0x36#8, 0x37#8, 0x38#8, 0x39#8] = 0x4B37#16

/-- R113: what `Compute` appends, `Verify` accepts, on every instance and every byte sequence. -/
def Obligations.ChecksumRoundTrip : Prop :=
  ∀ (c : Config) (b : List Byte), verify c (b ++ compute c b) = true

/-- R114: at the checksum parameters' defaults a frame with its code appended has checksum zero, and the zero residue
decides every input as `Verify` does, those below two bytes too. -/
def Obligations.ZeroResidueIsVerify : Prop :=
  ∀ c : Config, c.crcPoly = 0x8005#16 → c.crcInit = 0xFFFF#16 → c.crcXorOut = 0#16 →
    (∀ b : List Byte, crc16 c (b ++ compute c b) = 0#16) ∧
    (∀ f : List Byte, verify c f = true ↔ crc16 c f = 0#16)

/-- R112: `Verify` is false below two bytes; else it compares the trailing two bytes, low byte first, with the checksum of
every byte before them; so a frame with its two checksum bytes swapped fails, unless they are equal. -/
def Obligations.VerifyComparesTheTrailingCode : Prop :=
  ∀ c : Config,
    (∀ f : List Byte, f.length < 2 → verify c f = false) ∧
    (∀ (b : List Byte) (l h : Byte), verify c (b ++ [l, h]) = true ↔ crc16 c b = be16 h l) ∧
    (∀ b : List Byte, verify c (b ++ [hi8 (crc16 c b), lo8 (crc16 c b)]) = true ↔
      hi8 (crc16 c b) = lo8 (crc16 c b))

/-! ### Encoding (spec/30_encoding.md) -/

/-- Decode and encode agree: every well-formed frame of every row, in its direction, on every legal instance, decodes to
itself. -/
def Obligations.DecodeOfEncodeIsTheInstruction : Prop :=
  ∀ (c : Config) (i : Instr), c.legal → i.wellFormed c = true → decode c i.direction (encode c i) = .ok i

/-- The other way: a byte sequence that decodes is the encoding of what it decodes to, so decoding drops no bit; what it
decodes to is a frame of the direction asked for, and a well-formed one where the address byte is this unit's. -/
def Obligations.EncodeOfDecodeIsTheFrame : Prop :=
  ∀ (c : Config) (d : Direction) (f : List Byte) (i : Instr), decode c d f = .ok i →
    encode c i = f ∧ i.direction = d ∧ (f.head? = some c.unitAddress → i.wellFormed c = true)

/-- Frames of spec/95_test_vectors.md, written out there byte by byte, decode to the rows they stand for there; one with a
wrong checksum is rejected. The fourth clause alone is no vector of the spec but the model's reading (log 10, log 12, from
R80 and R91): there `01 87 01 82 30` is an exception response, as the fifth clause says, and read as a request, its code
being unsupported, it is an `ILLEGAL_FUNCTION` frame with the uninterpreted payload `01`. -/
def Obligations.DecodingOfSpecFrames : Prop :=
  decode Config.standard .request [0x01#8, 0x03#8, 0x00#8, 0x00#8, 0x00#8, 0x01#8, 0x84#8, 0x0A#8]
      = .ok (.rdh 0x01#8 0#16 1#16) ∧
  decode Config.standard .request [0x01#8, 0x06#8, 0x00#8, 0x05#8, 0x00#8, 0x64#8, 0x98#8, 0x20#8]
      = .ok (.wsr 0x01#8 5#16 100#16) ∧
  decode Config.standard .request
      [0x01#8, 0x10#8, 0x00#8, 0x00#8, 0x00#8, 0x02#8, 0x04#8, 0x00#8, 0x01#8, 0x00#8, 0x02#8, 0x23#8, 0xAE#8]
      = .ok (.wmr 0x01#8 0#16 2#16 4#8 [0x00#8, 0x01#8, 0x00#8, 0x02#8]) ∧
  decode Config.standard .request [0x01#8, 0x87#8, 0x01#8, 0x82#8, 0x30#8]
      = .ok (.illegalFunction 0x01#8 0x87#8 [0x01#8]) ∧
  decode Config.standard .response [0x01#8, 0x87#8, 0x01#8, 0x82#8, 0x30#8]
      = .ok (.rExc 0x87#8 .illegalFunction) ∧
  decode Config.standard .response [0x01#8, 0x03#8, 0x02#8, 0x12#8, 0x34#8, 0xB5#8, 0x33#8]
      = .ok (.rRdh [0x1234#16]) ∧
  decode Config.standard .request [0x01#8, 0x06#8, 0x00#8, 0x05#8, 0x00#8, 0x64#8, 0x98#8, 0x21#8]
      = .error .checksumMismatch

/-- R82, R83, R84: the request formats, byte by byte. -/
def Obligations.RequestFormats : Prop :=
  ∀ (c : Config) (u : Byte) (a q v : Word) (bc : Byte) (data : List Byte),
    (encode c (.rdh u a q) =
      [u, c.fcRead, hi8 a, lo8 a, hi8 q, lo8 q] ++ compute c [u, c.fcRead, hi8 a, lo8 a, hi8 q, lo8 q]) ∧
    (encode c (.wsr u a v) =
      [u, c.fcWriteSingle, hi8 a, lo8 a, hi8 v, lo8 v] ++ compute c [u, c.fcWriteSingle, hi8 a, lo8 a, hi8 v, lo8 v]) ∧
    (encode c (.wmr u a q bc data) =
      [u, c.fcWriteMultiple, hi8 a, lo8 a, hi8 q, lo8 q, bc] ++ data ++
        compute c ([u, c.fcWriteMultiple, hi8 a, lo8 a, hi8 q, lo8 q, bc] ++ data))

/-- R85, R86, R87, R88, R96: the response formats, byte by byte, with their lengths; the write-single response equals its
request; the address byte of every response is `P_UNIT_ADDRESS`. -/
def Obligations.ResponseFormats : Prop :=
  ∀ (c : Config) (vs : List Word) (a v q : Word) (code : Byte) (r : Reason),
    (encode c (.rRdh vs) =
        [c.unitAddress, c.fcRead, BitVec.ofNat 8 (2 * vs.length)] ++ vs.flatMap bigEndian ++
          compute c ([c.unitAddress, c.fcRead, BitVec.ofNat 8 (2 * vs.length)] ++ vs.flatMap bigEndian) ∧
      (encode c (.rRdh vs)).length = 5 + 2 * vs.length) ∧
    (encode c (.rWsr a v) =
        [c.unitAddress, c.fcWriteSingle, hi8 a, lo8 a, hi8 v, lo8 v] ++
          compute c [c.unitAddress, c.fcWriteSingle, hi8 a, lo8 a, hi8 v, lo8 v] ∧
      (encode c (.rWsr a v)).length = 8 ∧ encode c (.rWsr a v) = encode c (.wsr c.unitAddress a v)) ∧
    (encode c (.rWmr a q) =
        [c.unitAddress, c.fcWriteMultiple, hi8 a, lo8 a, hi8 q, lo8 q] ++
          compute c [c.unitAddress, c.fcWriteMultiple, hi8 a, lo8 a, hi8 q, lo8 q] ∧
      (encode c (.rWmr a q)).length = 8) ∧
    (encode c (.rExc (code ||| c.excFlag) r) =
        [c.unitAddress, code ||| c.excFlag, reasonByte c r] ++
          compute c [c.unitAddress, code ||| c.excFlag, reasonByte c r] ∧
      (encode c (.rExc (code ||| c.excFlag) r)).length = 5) ∧
    (∀ i : Instr, i.direction = .response → (encode c i).head? = some c.unitAddress)

/-- R89: the expected length, by the operation code: 8; or 9 and the byte-count at offset 6 once that byte has arrived,
unknown before. -/
def Obligations.ExpectedLenByCode : Prop :=
  ∀ (c : Config) (buf : List Byte), c.legal → 2 ≤ buf.length →
    (buf.getD 1 0 = c.fcRead ∨ buf.getD 1 0 = c.fcWriteSingle → expectedLen c buf = some (.known 8)) ∧
    (buf.getD 1 0 = c.fcWriteMultiple →
      expectedLen c buf = if 7 ≤ buf.length then some (.known (9 + (buf.getD 6 0).toNat)) else some .unknown)

/-! ### Frame assembler (spec/41_frame_assembler.md) -/

/-- R131, R132: in `AwaitAddress` a byte is tested against the unit address; a mismatch is discarded and the state stays;
the broadcast address 0 never matches. -/
def Obligations.AddressByteIsTested : Prop :=
  ∀ (s : State) (b : Byte), s.cfg.legal → s.st = .awaitAddress → s.buf = [] →
    (b = s.cfg.unitAddress → rxByte b s = .next { s with buf := [b], st := .awaitOperationCode }) ∧
    (b ≠ s.cfg.unitAddress → rxByte b s = .next { s with evlog := s.evlog ++ [.discard .addressMismatch] }) ∧
    rxByte 0#8 s = .next { s with evlog := s.evlog ++ [.discard .addressMismatch] }

/-- R133, R134: in `AwaitOperationCode` a supported code starts the accumulation; any other byte drops everything, itself
too, even when it is the unit address again. -/
def Obligations.OperationCodeIsTested : Prop :=
  ∀ (s : State) (b : Byte), s.cfg.legal → s.st = .awaitOperationCode → s.buf = [s.cfg.unitAddress] →
    (s.cfg.supported b → rxByte b s = .next { s with buf := [s.cfg.unitAddress, b], st := .accumulating }) ∧
    (¬ s.cfg.supported b →
      rxByte b s = .next { s with buf := [], st := .awaitAddress, evlog := s.evlog ++ [.discard .unsupportedCode] })

/-- R135, R136, R137, R138, R139: in `Accumulating` every byte is appended; until the frame has exactly its expected
length nothing else happens; then a frame whose checksum fails is discarded unanswered, and one whose checksum holds is
executed, as the well-formed request it decodes to, and the assembler returns to the start. -/
def Obligations.AccumulatingByte : Prop :=
  ∀ (s : State) (b : Byte), Invariant s → s.st = .accumulating →
    (expectedLen s.cfg (s.buf ++ [b]) ≠ some (.known (s.buf.length + 1)) →
      rxByte b s = .next { s with buf := s.buf ++ [b] }) ∧
    (expectedLen s.cfg (s.buf ++ [b]) = some (.known (s.buf.length + 1)) →
      verify s.cfg (s.buf ++ [b]) = false →
      rxByte b s = .next { s with buf := [], st := .awaitAddress, evlog := s.evlog ++ [.discard .checksumMismatch] }) ∧
    (expectedLen s.cfg (s.buf ++ [b]) = some (.known (s.buf.length + 1)) →
      verify s.cfg (s.buf ++ [b]) = true →
      ∃ i t, decode s.cfg .request (s.buf ++ [b]) = .ok i ∧ i.wellFormed s.cfg = true ∧
        (∀ u code payload, i ≠ .illegalFunction u code payload) ∧
        exec i { s with buf := s.buf ++ [b] } = .next t ∧
        rxByte b s = .next { t with buf := [], st := .awaitAddress })

/-- A step runs the decoded instruction: when the byte the worker reads completes a frame that decodes to `i`, the step is
`exec i` on the state with the turn and the byte used up and the frame in the buffer, and then the buffer is cleared and
the assembler waits for an address (R137). -/
def Obligations.StepRunsTheDecodedInstruction : Prop :=
  ∀ (s : State) (b : Byte) (i : Instr),
    s.cfg.legal → s.run = .running → s.stopReq = false → nextTurn s = .worker → nextUnit s = .byte b →
    s.st = .accumulating → s.buf.length < s.cfg.bufCap →
    expectedLen s.cfg (s.buf ++ [b]) = some (.known (s.buf.length + 1)) →
    decode s.cfg .request (s.buf ++ [b]) = .ok i →
    step s = match exec i { unitTaken (turnTaken s) with buf := s.buf ++ [b] } with
      | .next t => .next { t with buf := [], st := .awaitAddress }
      | .fault r => .fault r
      | .refused r => .refused r

/-- The assembler as a whole (R130 to R139): when the frame of a well-formed `RDH`, `WSR` or `WMR` comes byte by byte, one
worker iteration a byte, the machine is after the last one exactly where executing that instruction leads, with the
frame's bytes and turns used up; whatever follows on the line is untouched. -/
def Obligations.FrameByteByByteIsTheInstruction : Prop :=
  ∀ (s : State) (i : Instr) (rest : List RxUnit) (ts : List Turn),
    Invariant s → s.st = .awaitAddress → s.run = .running → s.stopReq = false →
    i.wellFormed s.cfg = true → i.direction = .request → (∀ u code payload, i ≠ .illegalFunction u code payload) →
    s.rx = (encode s.cfg i).map .byte ++ rest →
    s.turns = List.replicate (encode s.cfg i).length .worker ++ ts →
    Sys2Proof.core.run (encode s.cfg i).length s =
      exec i { s with rx := rest, rxCount := s.rxCount + (encode s.cfg i).length,
                      turns := ts, turnCount := s.turnCount + (encode s.cfg i).length }

/-- A doubled address byte (R133's corner case, R269): with a unit address that is no supported code, two address bytes
leave the assembler at the start with the candidate frame lost. -/
def Obligations.DoubledAddressByteIsLost : Prop :=
  ∀ (s : State) (us : List RxUnit) (ts : List Turn),
    s.cfg.legal → s.run = .running → s.stopReq = false → s.st = .awaitAddress → s.buf = [] →
    ¬ s.cfg.supported s.cfg.unitAddress →
    s.rx = .byte s.cfg.unitAddress :: .byte s.cfg.unitAddress :: us → s.turns = .worker :: .worker :: ts →
    Sys2Proof.core.run 2 s =
      .next { s with rx := us, rxCount := s.rxCount + 2, turns := ts, turnCount := s.turnCount + 2,
                     evlog := s.evlog ++ [.discard .unsupportedCode] }

/-! ### Dispatcher and response builder (spec/42_operations.md) -/

/-- R161: `RDH` when the write of the response succeeds. IllegalDataValue for a quantity outside 1..`P_MAX_READ_QTY`, else
IllegalDataAddress past the last cell, else the cells in ascending order; one response, one log entry, nothing else. -/
def Obligations.ReadHoldingRegisters : Prop :=
  ∀ (u : Byte) (a q : Word) (s : State), writeSucceeds s = true →
    exec (.rdh u a q) s = .next (
      if q.toNat < 1 ∨ s.cfg.maxReadQty < q.toNat then
        { sent (.rExc (s.cfg.fcRead ||| s.cfg.excFlag) .illegalDataValue) s with
          evlog := s.evlog ++ [.protoExc s.cfg.fcRead .illegalDataValue] }
      else if s.cfg.regCount < a.toNat + q.toNat then
        { sent (.rExc (s.cfg.fcRead ||| s.cfg.excFlag) .illegalDataAddress) s with
          evlog := s.evlog ++ [.protoExc s.cfg.fcRead .illegalDataAddress] }
      else
        { sent (.rRdh ((List.range q.toNat).map fun k => s.x.read (a.toNat + k))) s with
          evlog := s.evlog ++ [.notify (.readReq u s.cfg.fcRead a q)] })

/-- R162: `WSR` when the write of the response succeeds. -/
def Obligations.WriteSingleRegister : Prop :=
  ∀ (u : Byte) (a v : Word) (s : State), writeSucceeds s = true →
    exec (.wsr u a v) s = .next (
      if s.cfg.regCount ≤ a.toNat then
        { sent (.rExc (s.cfg.fcWriteSingle ||| s.cfg.excFlag) .illegalDataAddress) s with
          evlog := s.evlog ++ [.protoExc s.cfg.fcWriteSingle .illegalDataAddress] }
      else
        { sent (.rWsr a v) s with
          x := s.x.write a.toNat v
          evlog := s.evlog ++ [.notify (.writeOneReq u s.cfg.fcWriteSingle a v)] })

/-- R163: `WMR` when the write of the response succeeds, for a frame whose value bytes are as many as its byte-count says.
IllegalDataValue for a quantity outside 1..`P_MAX_WRITE_QTY` or a byte-count other than 2·q, else IllegalDataAddress past
the last cell, else all the values stored from the start address on. -/
def Obligations.WriteMultipleRegisters : Prop :=
  ∀ (u : Byte) (a q : Word) (bc : Byte) (data : List Byte) (s : State), writeSucceeds s = true →
    data.length = bc.toNat →
    exec (.wmr u a q bc data) s = .next (
      if q.toNat < 1 ∨ s.cfg.maxWriteQty < q.toNat ∨ bc.toNat ≠ 2 * q.toNat then
        { sent (.rExc (s.cfg.fcWriteMultiple ||| s.cfg.excFlag) .illegalDataValue) s with
          evlog := s.evlog ++ [.protoExc s.cfg.fcWriteMultiple .illegalDataValue] }
      else if s.cfg.regCount < a.toNat + q.toNat then
        { sent (.rExc (s.cfg.fcWriteMultiple ||| s.cfg.excFlag) .illegalDataAddress) s with
          evlog := s.evlog ++ [.protoExc s.cfg.fcWriteMultiple .illegalDataAddress] }
      else
        let vs := (List.range q.toNat).map fun k => be16 (data.getD (2 * k) 0) (data.getD (2 * k + 1) 0)
        { sent (.rWmr a q) s with
          x := s.x.writeMany a.toNat vs
          evlog := s.evlog ++ [.notify (.writeManyReq u s.cfg.fcWriteMultiple a q vs)] })

/-- R164, R133: the dispatcher's arm for every other code answers IllegalFunction, whatever the payload; no candidate frame
of known length decodes to it; and no byte stream reaches it: no step, from any state, logs an IllegalFunction exception.
That the arm takes a whole frame with an uninterpreted payload is the model's reading (log 10), and that the wire discards
the code unanswered is the spec's own decision (92_eei_decisions.md D5), from which a build may differ. -/
def Obligations.IllegalFunctionIsAnsweredByTheDispatcherAlone : Prop :=
  (∀ (u code : Byte) (payload : List Byte) (s : State), writeSucceeds s = true →
    exec (.illegalFunction u code payload) s = .next
      { sent (.rExc (code ||| s.cfg.excFlag) .illegalFunction) s with
        evlog := s.evlog ++ [.protoExc code .illegalFunction] }) ∧
  (∀ (s : State) (b : Byte) (n : Nat), expectedLen s.cfg (s.buf ++ [b]) = some (.known n) →
    ∀ u code payload, decode s.cfg .request (s.buf ++ [b]) ≠ .ok (.illegalFunction u code payload)) ∧
  (∀ s t : State, step s = .next t → nextTurn s ≠ .reset →
    ∀ fc : Byte, LogEntry.protoExc fc .illegalFunction ∉ t.evlog.drop s.evlog.length)

/-- The response rows (R165, R167): executing a response is sending its frame: when the write succeeds the frame stands
whole at the end of `tx` and nothing else changes but the write's result used up. That a response row means this is the
model's reading (log 11). -/
def Obligations.ResponsesAreSentWhole : Prop :=
  ∀ s : State, writeSucceeds s = true →
    (∀ vs : List Word, exec (.rRdh vs) s = .next (sent (.rRdh vs) s)) ∧
    (∀ a v : Word, exec (.rWsr a v) s = .next (sent (.rWsr a v) s)) ∧
    (∀ a q : Word, exec (.rWmr a q) s = .next (sent (.rWmr a q) s)) ∧
    (∀ (code : Byte) (r : Reason), exec (.rExc code r) s = .next (sent (.rExc code r) s))

/-- R168: `Send` puts the whole response on `tx`, or on a failure after k bytes those k bytes, and then the link has
failed. -/
def Obligations.SendEmitsAllOrAPrefix : Prop :=
  ∀ (resp : List Byte) (s : State),
    (nextResult s = .ok → send resp s = (true, { resultTaken s with tx := s.tx ++ resp })) ∧
    (∀ k, nextResult s = .fail k → k < resp.length →
      send resp s = (false, { resultTaken s with tx := s.tx ++ resp.take k, run := .linkFailed }))

/-- A transmit failure in any instruction (R168, R169, R239): compared with the same instruction whose response is written
whole, the registers are the same, only the first k bytes of the response stand on `tx`, the link has failed, and of the
log entries the notification is missing. -/
def Obligations.TransmitFailureKeepsTheStoreChange : Prop :=
  ∀ (i : Instr) (s : State) (k : Nat), nextResult s = .fail k →
    ∃ t resp es, exec i { s with txResults := .ok :: s.txResults.tail } = .next t ∧
      t.tx = s.tx ++ resp ∧ t.evlog = s.evlog ++ es ∧
      (k < resp.length →
        exec i s = .next { t with tx := s.tx ++ resp.take k, run := .linkFailed,
                                  evlog := s.evlog ++ es.filter (fun e => !e.isNotify) })

/-- Every instruction completes, in every state, and leaves everything alone but registers, `tx`, `run`, `evlog` and the
write's result: the receive side, the assembler, the stop request, the host's results and the instance; `tx` and `evlog`
only grow, by one response and at most one entry. -/
def Obligations.EveryInstructionCompletes : Prop :=
  ∀ (i : Instr) (s : State), ∃ t, exec i s = .next t ∧
    t.cfg = s.cfg ∧ t.st = s.st ∧ t.buf = s.buf ∧ t.stopReq = s.stopReq ∧ t.turns = s.turns ∧ t.rx = s.rx ∧
    t.hostResults = s.hostResults ∧ t.turnCount = s.turnCount ∧ t.rxCount = s.rxCount ∧
    t.txResults = s.txResults.tail ∧ t.txCount = s.txCount + 1 ∧
    (∃ r, t.tx = s.tx ++ r) ∧ (∃ es, t.evlog = s.evlog ++ es ∧ es.length ≤ 1)

/-- Frame of the instructions that store nothing: `RDH`, `ILLEGAL_FUNCTION` and the four responses leave every register
alone (R161, R164, R59). -/
def Obligations.ReadsAndResponsesChangeNoRegister : Prop :=
  ∀ (i : Instr) (s t : State), exec i s = .next t →
    (∀ u a v, i ≠ .wsr u a v) → (∀ u a q bc data, i ≠ .wmr u a q bc data) →
    ∀ j : Nat, t.x.read j = s.x.read j

/-- Frame of `WSR` (R162, R53): the cell it names, when it exists, holds the value afterwards and every other cell what it
held, whatever the response's write comes to; past the last cell no register changes. -/
def Obligations.WriteSingleChangesOneCell : Prop :=
  ∀ (u : Byte) (a v : Word) (s t : State), s.x.wf → exec (.wsr u a v) s = .next t →
    ∀ j : Nat, t.x.read j = if a.toNat < s.cfg.regCount ∧ j = a.toNat then v else s.x.read j

/-- Frame of `WMR` (R163, R54): after an accepted request cell a+k holds value k and every other cell what it held,
whatever the response's write comes to; after a refused one no register changes, not even those in range. -/
def Obligations.WriteMultipleChangesExactlyItsCells : Prop :=
  ∀ (u : Byte) (a q : Word) (bc : Byte) (data : List Byte) (s t : State), s.x.wf → data.length = bc.toNat →
    exec (.wmr u a q bc data) s = .next t →
    ∀ j : Nat, t.x.read j =
      if (1 ≤ q.toNat ∧ q.toNat ≤ s.cfg.maxWriteQty ∧ bc.toNat = 2 * q.toNat ∧ a.toNat + q.toNat ≤ s.cfg.regCount) ∧
          (a.toNat ≤ j ∧ j < a.toNat + q.toNat) then
        be16 (data.getD (2 * (j - a.toNat)) 0) (data.getD (2 * (j - a.toNat) + 1) 0)
      else s.x.read j

/-- R231, R166: whatever instruction takes a protocol exception, no register changes; when the write succeeds exactly the
exception frame is sent, no notification follows, and the worker carries on. -/
def Obligations.ProtocolExceptionsChangeNoRegister : Prop :=
  ∀ (i : Instr) (s t : State) (fc : Byte) (r : Reason), exec i s = .next t →
    LogEntry.protoExc fc r ∈ t.evlog.drop s.evlog.length →
    t.x = s.x ∧ t.evlog = s.evlog ++ [.protoExc fc r] ∧
      (writeSucceeds s = true → t.run = s.run ∧
        t.tx = s.tx ++ encode s.cfg (.rExc (fc ||| s.cfg.excFlag) r))

/-- R160, R236 (a frame gets at most one response): every well-formed request, in every state of a legal instance with
`P_EXC_FLAG` at its default, is answered by exactly one frame, and that frame decodes, as a response, to one well-formed
response. -/
def Obligations.EveryRequestGetsOneWellFormedResponse : Prop :=
  ∀ (i : Instr) (s t : State), s.cfg.legal → s.cfg.excFlag = 0x80#8 → i.direction = .request →
    i.wellFormed s.cfg = true → writeSucceeds s = true → exec i s = .next t →
    ∃ r, r.wellFormed s.cfg = true ∧ t.tx = s.tx ++ encode s.cfg r ∧ decode s.cfg .response (encode s.cfg r) = .ok r

/-- R56: a two-cell value read in one request travels low word first, each word big-endian. -/
def Obligations.TwoCellValueTravelsLowWordFirst : Prop :=
  ∀ (u : Byte) (a : Word) (f : BitVec 32) (s : State), writeSucceeds s = true → 2 ≤ s.cfg.maxReadQty →
    a.toNat + 2 ≤ s.cfg.regCount → s.x.read a.toNat = f.extractLsb' 0 16 →
    s.x.read (a.toNat + 1) = f.extractLsb' 16 16 →
    ∃ t, exec (.rdh u a 2#16) s = .next t ∧
      t.tx = s.tx ++ frame s.cfg s.cfg.unitAddress
        ([s.cfg.fcRead, 4#8] ++ bigEndian (f.extractLsb' 0 16) ++ bigEndian (f.extractLsb' 16 16))

/-! ### Register store (spec/20_memory.md) -/

/-- R52: `StoreRead` refuses 0 cells, more than `P_MAX_READ_QTY`, and any cell that does not exist; else it gives the cells
in ascending address order. -/
def Obligations.StoreReadGivesTheCells : Prop :=
  ∀ (c : Config) (m : Memory) (a n : Word),
    storeRead c m a n =
      if n.toNat = 0 ∨ c.maxReadQty < n.toNat ∨ c.regCount < a.toNat + n.toNat then .outOfRange
      else .ok ((List.range n.toNat).map fun k => m.read (a.toNat + k))

/-- R53: `StoreWriteOne` refuses a cell that does not exist; else that cell holds the value and every other cell what it
held. -/
def Obligations.StoreWriteOneChangesOneCell : Prop :=
  ∀ (c : Config) (m : Memory) (a v : Word), m.wf →
    (c.regCount < a.toNat + 1 → storeWriteOne c m a v = .outOfRange) ∧
    (a.toNat + 1 ≤ c.regCount → ∃ m', storeWriteOne c m a v = .ok m' ∧
      ∀ j, m'.read j = if j = a.toNat then v else m.read j)

/-- R54: `StoreWriteMany` refuses a run that names a cell that does not exist; else cell a+k holds value k and every other
cell what it held. -/
def Obligations.StoreWriteManyChangesExactlyItsCells : Prop :=
  ∀ (c : Config) (m : Memory) (a : Word) (vs : List Word), m.wf →
    (c.regCount < a.toNat + vs.length → storeWriteMany c m a vs = .outOfRange) ∧
    (a.toNat + vs.length ≤ c.regCount → ∃ m', storeWriteMany c m a vs = .ok m' ∧
      ∀ j, m'.read j = if a.toNat ≤ j ∧ j < a.toNat + vs.length then vs.getD (j - a.toNat) 0 else m.read j)

/-- The store's canonical form (log 20): two canonical stores that read the same everywhere are the same list, so a store
written back to what it held is the store it was. -/
def Obligations.EqualReadsAreEqualStores : Prop :=
  ∀ m m' : Memory, m.wf → m'.wf → (∀ j, m.read j = m'.read j) → m = m'

/-! ### Host port and worker loop (spec/43_host_and_control.md) -/

/-- R205, R206, R207: one iteration of a running worker whose turn it is. A requested stop comes before the read, whether or
not anything is left to read, and leaves the unread units; a timeout changes nothing; a closed channel fails the link and
leaves the candidate frame; a byte goes to the assembler. -/
def Obligations.WorkerIterationByWhatIsRead : Prop :=
  ∀ s : State, s.cfg.legal → s.run = .running → nextTurn s = .worker →
    (s.stopReq = true → step s = .next { turnTaken s with run := .stopped }) ∧
    (s.stopReq = false →
      step s =
        match nextUnit s with
        | .byte b => rxByte b (unitTaken (turnTaken s))
        | .timeout => .next (unitTaken (turnTaken s))
        | .closed => .next { unitTaken (turnTaken s) with run := .linkFailed })

/-- Outside `Running` no worker step is enabled (R26, R205). That a worker's turn there is a step which uses up the turn and
changes nothing else is the model's choice (log 6). -/
def Obligations.WorkerTurnOutsideRunningChangesNothing : Prop :=
  ∀ s : State, s.cfg.legal → s.run ≠ .running → nextTurn s = .worker → step s = .next (turnTaken s)

/-- Where nothing is listed, the choice is a free value that nothing constrains (log 4): the step is that of whatever agent
the free turn names, a running worker takes whatever unit the free read gives, and a response goes out as the free result
says. A listed choice is taken in its order. -/
def Obligations.NothingListedIsAFreeChoice : Prop :=
  ∀ s : State, s.cfg.legal →
    (s.turns = [] →
      step s = takeTurn (Config.freeTurn s.turnCount) { s with turnCount := s.turnCount + 1 }) ∧
    (∀ t ts, s.turns = t :: ts → step s = takeTurn t { s with turns := ts, turnCount := s.turnCount + 1 }) ∧
    (s.run = .running → s.stopReq = false → s.rx = [] →
      workerIteration s =
        match Config.freeUnit s.rxCount with
        | .byte b => rxByte b { s with rxCount := s.rxCount + 1 }
        | .timeout => .next { s with rxCount := s.rxCount + 1 }
        | .closed => .next { s with rxCount := s.rxCount + 1, run := .linkFailed }) ∧
    (∀ resp : List Byte, s.txResults = [] →
      send resp s =
        match Config.freeResult s.txCount with
        | .ok => (true, { s with tx := s.tx ++ resp, txCount := s.txCount + 1 })
        | .fail k => (false, { s with tx := s.tx ++ failedPrefix k resp, txCount := s.txCount + 1, run := .linkFailed }))

/-- While no agent has a turn, as when the worker's read does not end, nothing changes, however long it lasts (R211; that
this stands as turns of nobody is the model's choice, log 21). So no bound on the number of steps makes the worker act. -/
def Obligations.TurnsOfNobodyChangeNothing : Prop :=
  ∀ (n : Nat) (s : State), s.cfg.legal → (∀ j < n, turnAt s j = .idle) →
    Sys2Proof.core.run n s = .next { s with turns := s.turns.drop n, turnCount := s.turnCount + n }

/-- R211 (1), R205: a set stop request is acted on at the worker's next iteration, whatever hosts do before it: no unit is
read and nothing is sent or logged on the way. That the worker gets its turn, and gets it before a reset, is the named
assumption `WorkerStepsBeforeReset`, which no rule of the machine gives. -/
def Obligations.StopIsActedOnWhenTheWorkerSteps : Prop :=
  ∀ s : State, s.cfg.legal → s.run = .running → s.stopReq = true → WorkerStepsBeforeReset s →
    ∃ k t, Sys2Proof.core.run k s = .next t ∧ t.run = .stopped ∧ t.stopReq = true ∧ t.st = s.st ∧ t.buf = s.buf ∧
      t.tx = s.tx ∧ t.evlog = s.evlog ∧ t.rx = s.rx ∧ t.rxCount = s.rxCount

/-- R200: the host's read, in every run status. -/
def Obligations.HostReadReturnsTheCells : Prop :=
  ∀ (s : State) (a n : Word), s.cfg.legal → nextTurn s = .host (.hget a n) →
    step s = .next { turnTaken s with
      hostResults := s.hostResults ++
        [if n.toNat = 0 ∨ s.cfg.maxReadQty < n.toNat ∨ s.cfg.regCount < a.toNat + n.toNat then .outOfRange
         else .cells ((List.range n.toNat).map fun k => s.x.read (a.toNat + k))] }

/-- R201: the host's single write, in every run status. -/
def Obligations.HostWriteChangesOneCell : Prop :=
  ∀ (s : State) (a v : Word), s.cfg.legal → s.x.wf → nextTurn s = .host (.hset a v) →
    (s.cfg.regCount ≤ a.toNat →
      step s = .next { turnTaken s with hostResults := s.hostResults ++ [.outOfRange] }) ∧
    (a.toNat < s.cfg.regCount → ∃ m,
      step s = .next { turnTaken s with x := m, hostResults := s.hostResults ++ [.done] } ∧
      ∀ j, m.read j = if j = a.toNat then v else s.x.read j)

/-- R202: the host's multiple write, all cells in one step, in every run status; an empty one is accepted up to N. -/
def Obligations.HostMultipleWriteIsOneStep : Prop :=
  ∀ (s : State) (a : Word) (vs : List Word), s.cfg.legal → s.x.wf → nextTurn s = .host (.hsetm a vs) →
    (s.cfg.regCount < a.toNat + vs.length →
      step s = .next { turnTaken s with hostResults := s.hostResults ++ [.outOfRange] }) ∧
    (a.toNat + vs.length ≤ s.cfg.regCount → ∃ m,
      step s = .next { turnTaken s with x := m, hostResults := s.hostResults ++ [.done] } ∧
      ∀ j, m.read j = if a.toNat ≤ j ∧ j < a.toNat + vs.length then vs.getD (j - a.toNat) 0 else s.x.read j)

/-- R204: the stop request sets `stop_req` and nothing else. -/
def Obligations.HostStopSetsTheFlag : Prop :=
  ∀ s : State, s.cfg.legal → nextTurn s = .host .hstop → step s = .next { turnTaken s with stopReq := true }

/-- R203: the host port works in every run status, and its steps never touch `st`, `buf`, `tx` or `run`. -/
def Obligations.HostStepsLeaveTheWorkerAlone : Prop :=
  ∀ (s : State) (call : HostCall), s.cfg.legal → nextTurn s = .host call →
    ∃ t, step s = .next t ∧ t.st = s.st ∧ t.buf = s.buf ∧ t.tx = s.tx ∧ t.run = s.run

/-! ### Reset and the instance (spec/70_reset_and_hazards.md, spec/00_scope.md) -/

/-- R260, R36: the reset step, between any two steps, sets every component of the state; the instance stays. -/
def Obligations.ResetStepSetsEveryComponent : Prop :=
  ∀ s : State, s.cfg.legal → nextTurn s = .reset →
    ∃ t, step s = .next t ∧ t.x = s.cfg.regInit ∧ t.st = .awaitAddress ∧ t.buf = [] ∧ t.tx = [] ∧
      t.run = .running ∧ t.stopReq = false ∧ t.evlog = [] ∧ t.cfg = s.cfg

/-- R36, R261: the state after reset. The contents of the registers are those of the instance's `P_REG_INIT`, whatever
they are. -/
def Obligations.ResetStateHoldsTheResetValues : Prop :=
  State.reset.x = State.reset.cfg.regInit ∧ State.reset.st = .awaitAddress ∧ State.reset.buf = [] ∧
    State.reset.tx = [] ∧ State.reset.run = .running ∧ State.reset.stopReq = false ∧ State.reset.evlog = []

/-- The reset state meets the invariant. That its instance is a legal one is the model's choice of instance (log 2). -/
def Obligations.ResetMeetsTheInvariant : Prop :=
  Invariant State.reset

/-- R8: an instance that breaks a constraint is refused. -/
def Obligations.IllegalInstanceIsRefused : Prop :=
  ∀ s : State,
    (s.cfg.unitAddress = 0#8 ∨
      s.cfg.fcRead = s.cfg.fcWriteSingle ∨ s.cfg.fcRead = s.cfg.fcWriteMultiple ∨
      s.cfg.fcWriteSingle = s.cfg.fcWriteMultiple ∨
      0x80 ≤ s.cfg.fcRead.toNat ∨ 0x80 ≤ s.cfg.fcWriteSingle.toNat ∨ 0x80 ≤ s.cfg.fcWriteMultiple.toNat ∨
      s.cfg.excIllegalFunction = s.cfg.excIllegalDataAddress ∨ s.cfg.excIllegalFunction = s.cfg.excIllegalDataValue ∨
      s.cfg.excIllegalDataAddress = s.cfg.excIllegalDataValue ∨
      127 < s.cfg.maxReadQty ∨ 127 < s.cfg.maxWriteQty ∨ s.cfg.bufCap < 9 + 255) →
    step s = .refused .illegalInstance

/-! ### The whole machine -/

/-- Every step keeps the invariant: the instance stays legal, the store stays canonical and lists only cells that exist,
and the assembler's state, buffer and expected length stay as spec/10_state.md R29 says. -/
def Obligations.EveryStepKeepsTheInvariant : Prop :=
  ∀ s t : State, Invariant s → step s = .next t → Invariant t

/-- No state that meets the invariant stops: every step answers a next state. The machine has no trap (R238), and the
model's two faults are unreachable (R29, R142). -/
def Obligations.NoStepFromAnInvariantStateStops : Prop :=
  ∀ s : State, Invariant s → ∃ t, step s = .next t

/-- R142: the receive buffer never holds more than 263 bytes between steps. -/
def Obligations.BufferBound : Prop :=
  ∀ s : State, Invariant s → s.buf.length ≤ 263

/-- R26: how the run status changes. Reset makes it `Running`; a requested stop makes a running worker `Stopped`; a closed
channel or a failed write makes it `LinkFailed`; nothing else changes it, so `Stopped` and `LinkFailed` last until
reset. -/
def Obligations.RunStatusChangesOnlyByStopErrorOrReset : Prop :=
  ∀ s t : State, step s = .next t → t.run ≠ s.run →
    (nextTurn s = .reset ∧ t.run = .running) ∨
    (nextTurn s = .worker ∧ s.run = .running ∧ s.stopReq = true ∧ t.run = .stopped) ∨
    (nextTurn s = .worker ∧ s.run = .running ∧ s.stopReq = false ∧ t.run = .linkFailed ∧
      (nextUnit s = .closed ∨ ∃ k, nextResult s = .fail k))

/-- R27: only the host's stop call sets the stop request, only reset clears it. -/
def Obligations.StopRequestChangesOnlyByHostOrReset : Prop :=
  ∀ s t : State, step s = .next t → t.stopReq ≠ s.stopReq →
    (nextTurn s = .host .hstop ∧ t.stopReq = true) ∨ (nextTurn s = .reset ∧ t.stopReq = false)

/-- R22, R231, R238: a step that changes a register is a host write, a reset, or the worker's byte that completes a frame
with a valid checksum that decodes to `WSR` or `WMR`. -/
def Obligations.OnlyWritesAndResetChangeRegisters : Prop :=
  ∀ s t : State, step s = .next t → t.x ≠ s.x →
    (∃ a v, nextTurn s = .host (.hset a v)) ∨ (∃ a vs, nextTurn s = .host (.hsetm a vs)) ∨ nextTurn s = .reset ∨
    (nextTurn s = .worker ∧ s.run = .running ∧ s.stopReq = false ∧ s.st = .accumulating ∧
      ∃ b, nextUnit s = .byte b ∧ verify s.cfg (s.buf ++ [b]) = true ∧
        ((∃ u a v, decode s.cfg .request (s.buf ++ [b]) = .ok (.wsr u a v)) ∨
         (∃ u a q bc data, decode s.cfg .request (s.buf ++ [b]) = .ok (.wmr u a q bc data))))

/-- R25, R26, R28, R143: `tx` and `evlog` are append-only until reset, and anything sent was sent by a running worker with no
stop requested, for a complete frame with a valid checksum whose first byte is the unit address: a corrupted or foreign
frame is never answered, and a stopped or failed worker sends nothing. -/
def Obligations.NothingIsSentWithoutAVerifiedFrame : Prop :=
  ∀ s t : State, Invariant s → step s = .next t → nextTurn s ≠ .reset →
    (∃ es, t.evlog = s.evlog ++ es) ∧
    ∃ r, t.tx = s.tx ++ r ∧ (r = [] ∨
      (nextTurn s = .worker ∧ s.run = .running ∧ s.stopReq = false ∧ s.st = .accumulating ∧
        ∃ b, nextUnit s = .byte b ∧ verify s.cfg (s.buf ++ [b]) = true ∧
        s.buf.head? = some s.cfg.unitAddress ∧
        expectedLen s.cfg (s.buf ++ [b]) = some (.known (s.buf.length + 1))))

/-- R140, R230: a step that logs a framing error sends nothing, touches no register, keeps the run status, and leaves the
assembler at the start. -/
def Obligations.FramingErrorsAreSilent : Prop :=
  ∀ (s t : State) (k : DiscardKind), step s = .next t → nextTurn s ≠ .reset →
    LogEntry.discard k ∈ t.evlog.drop s.evlog.length →
    t.evlog = s.evlog ++ [.discard k] ∧ t.tx = s.tx ∧ t.x = s.x ∧ t.run = s.run ∧ t.buf = [] ∧ t.st = .awaitAddress

/-- R32, R33: no step changes the instance's parameters. -/
def Obligations.ConfigurationIsFixed : Prop :=
  ∀ s t : State, step s = .next t → t.cfg = s.cfg

/-- R63: register contents never change how later bytes are decoded. Two states that differ only in their registers step
alike: the same assembler state, buffer, run status, stop request, log, turns and inputs, and as many bytes sent. -/
def Obligations.RegistersNeverSteerTheAssembler : Prop :=
  ∀ (s t : State) (m : Memory), step s = .next t → ∃ t', step { s with x := m } = .next t' ∧
    t'.cfg = t.cfg ∧ t'.st = t.st ∧ t'.buf = t.buf ∧ t'.run = t.run ∧ t'.stopReq = t.stopReq ∧ t'.evlog = t.evlog ∧
    t'.turns = t.turns ∧ t'.rx = t.rx ∧ t'.txResults = t.txResults ∧ t'.turnCount = t.turnCount ∧
    t'.rxCount = t.rxCount ∧ t'.txCount = t.txCount ∧ t'.tx.length = t.tx.length

/-- Two states that differ only in the event log, `tx` and the host's results step alike in everything else, and each of the
three grows by the same entries in both, except that a reset empties the event log and `tx` and leaves the host's results.
Of the event log R28 says that no rule reads it. That none reads `tx` is inferred from R25 and R213; the host's results
are a field of the model's own, and that a reset keeps them is the model's choice (log 7). -/
def Obligations.OutputsAreReadByNoRule : Prop :=
  ∀ (s t : State) (log : List LogEntry) (out : List Byte) (res : List HostResult), step s = .next t →
    ∃ (es : List LogEntry) (bs : List Byte) (rs : List HostResult),
      t.evlog = (if nextTurn s = .reset then [] else s.evlog ++ es) ∧
      t.tx = (if nextTurn s = .reset then [] else s.tx ++ bs) ∧
      t.hostResults = s.hostResults ++ rs ∧
      step { s with evlog := log, tx := out, hostResults := res } = .next { t with
        evlog := if nextTurn s = .reset then [] else log ++ es
        tx := if nextTurn s = .reset then [] else out ++ bs
        hostResults := res ++ rs }
end

