-- ==== Sys2Proof/Laws/Bytes.lean ====
section
/-! SUPPORT. Bytes and fields: assembling a field from its bytes and taking it apart again, and cutting a frame into its
parts. -/

namespace Sys2Proof

theorem be16_getLsbD (h l : Byte) (i : Nat) :
    (be16 h l).getLsbD i = if i < 8 then l.getLsbD i else h.getLsbD (i - 8) :=
  BitVec.getLsbD_append

@[simp] theorem be16_hi8_lo8 (v : Word) : be16 (hi8 v) (lo8 v) = v := by
  apply BitVec.eq_of_getLsbD_eq
  intro i hi
  rw [be16_getLsbD]
  by_cases h : i < 8
  · simp [lo8, h]
  · simp [hi8, h, show i - 8 < 8 by omega, show 8 + (i - 8) = i by omega]

@[simp] theorem hi8_be16 (h l : Byte) : hi8 (be16 h l) = h := by
  apply BitVec.eq_of_getLsbD_eq
  intro i hi
  simp only [hi8, BitVec.getLsbD_extractLsb', be16_getLsbD]
  simp [hi]

@[simp] theorem lo8_be16 (h l : Byte) : lo8 (be16 h l) = l := by
  apply BitVec.eq_of_getLsbD_eq
  intro i hi
  simp only [lo8, BitVec.getLsbD_extractLsb', be16_getLsbD]
  simp [hi]

@[simp] theorem bytesValues_valueBytes (vs : List Word) : bytesValues (valueBytes vs) = vs := by
  induction vs with
  | nil => rfl
  | cons v vs ih => simp [valueBytes, bytesValues, ih]

@[simp] theorem valueBytes_length (vs : List Word) : (valueBytes vs).length = 2 * vs.length := by
  induction vs with
  | nil => rfl
  | cons v vs ih =>
    simp only [valueBytes, List.length_cons, ih]
    omega

theorem valueBytes_eq_flatMap (vs : List Word) : valueBytes vs = vs.flatMap bigEndian := by
  induction vs with
  | nil => rfl
  | cons v vs ih => simp [valueBytes, bigEndian, ih]

theorem bytesValues_length : ∀ ds : List Byte, (bytesValues ds).length = ds.length / 2
  | [] => rfl
  | [_] => by simp [bytesValues]
  | _ :: _ :: ds => by
    simp only [bytesValues, List.length_cons, bytesValues_length ds]
    omega

theorem valueBytes_bytesValues : ∀ ds : List Byte, ds.length % 2 = 0 → valueBytes (bytesValues ds) = ds
  | [], _ => rfl
  | [_], h => by simp at h
  | h :: l :: ds, hd => by
    simp only [List.length_cons] at hd
    simp [bytesValues, valueBytes, valueBytes_bytesValues ds (by omega)]

theorem bytesValues_eq_map : ∀ ds : List Byte,
    bytesValues ds = (List.range (ds.length / 2)).map (fun k => be16 (ds.getD (2 * k) 0) (ds.getD (2 * k + 1) 0))
  | [] => rfl
  | [_] => by simp [bytesValues]
  | h :: l :: ds => by
    have e : (h :: l :: ds).length / 2 = ds.length / 2 + 1 := by simp only [List.length_cons]; omega
    rw [e, List.range_succ_eq_map, bytesValues, bytesValues_eq_map ds]
    simp [Nat.mul_add]

/-- A frame built from an address byte and a PDU with at least an operation code is cut back into them. -/
theorem splitFrame_frame (c : Config) (u fc : Byte) (r : List Byte) :
    splitFrame (frame c u (fc :: r)) = some (u, fc :: r) := by
  simp [splitFrame, frame, compute]

theorem frame_length (c : Config) (u : Byte) (p : List Byte) : (frame c u p).length = p.length + 3 := by
  simp [frame, compute]

/-- Cutting a frame loses nothing: it is the address byte, the PDU and two more bytes. -/
theorem splitFrame_cases {f : List Byte} {u : Byte} {p : List Byte} (h : splitFrame f = some (u, p)) :
    ∃ l h', f = u :: p ++ [l, h'] ∧ 1 ≤ p.length := by
  unfold splitFrame at h
  split at h
  next u' rest =>
    split at h
    next hl =>
      cases h
      have h2 : (rest.drop (rest.length - 2)).length = 2 := by
        rw [List.length_drop]
        omega
      obtain ⟨l, h', hlh⟩ := List.length_eq_two.mp h2
      refine ⟨l, h', ?_, ?_⟩
      · rw [← hlh]
        simp
      · rw [List.length_take]
        omega
    next => cases h
  next => cases h

end Sys2Proof
end

