-- ==== Sys2Proof/Laws/State.lean ====
section
/-! SUPPORT. One lemma per field per update of the state, so that no later proof unfolds a record update. -/

namespace Sys2Proof.Machine

variable (s : State)

/-! ### emit -/

@[simp] theorem emit_cfg (bs : List Byte) : (emit bs s).cfg = s.cfg := rfl
@[simp] theorem emit_x (bs : List Byte) : (emit bs s).x = s.x := rfl
@[simp] theorem emit_st (bs : List Byte) : (emit bs s).st = s.st := rfl
@[simp] theorem emit_buf (bs : List Byte) : (emit bs s).buf = s.buf := rfl
@[simp] theorem emit_tx (bs : List Byte) : (emit bs s).tx = s.tx ++ bs := rfl
@[simp] theorem emit_run (bs : List Byte) : (emit bs s).run = s.run := rfl
@[simp] theorem emit_stopReq (bs : List Byte) : (emit bs s).stopReq = s.stopReq := rfl
@[simp] theorem emit_evlog (bs : List Byte) : (emit bs s).evlog = s.evlog := rfl
@[simp] theorem emit_turns (bs : List Byte) : (emit bs s).turns = s.turns := rfl
@[simp] theorem emit_rx (bs : List Byte) : (emit bs s).rx = s.rx := rfl
@[simp] theorem emit_txResults (bs : List Byte) : (emit bs s).txResults = s.txResults := rfl
@[simp] theorem emit_hostResults (bs : List Byte) : (emit bs s).hostResults = s.hostResults := rfl
@[simp] theorem emit_turnCount (bs : List Byte) : (emit bs s).turnCount = s.turnCount := rfl
@[simp] theorem emit_rxCount (bs : List Byte) : (emit bs s).rxCount = s.rxCount := rfl
@[simp] theorem emit_txCount (bs : List Byte) : (emit bs s).txCount = s.txCount := rfl

/-! ### logEvent -/

@[simp] theorem logEvent_cfg (e : LogEntry) : (logEvent e s).cfg = s.cfg := rfl
@[simp] theorem logEvent_x (e : LogEntry) : (logEvent e s).x = s.x := rfl
@[simp] theorem logEvent_st (e : LogEntry) : (logEvent e s).st = s.st := rfl
@[simp] theorem logEvent_buf (e : LogEntry) : (logEvent e s).buf = s.buf := rfl
@[simp] theorem logEvent_tx (e : LogEntry) : (logEvent e s).tx = s.tx := rfl
@[simp] theorem logEvent_run (e : LogEntry) : (logEvent e s).run = s.run := rfl
@[simp] theorem logEvent_stopReq (e : LogEntry) : (logEvent e s).stopReq = s.stopReq := rfl
@[simp] theorem logEvent_evlog (e : LogEntry) : (logEvent e s).evlog = s.evlog ++ [e] := rfl
@[simp] theorem logEvent_turns (e : LogEntry) : (logEvent e s).turns = s.turns := rfl
@[simp] theorem logEvent_rx (e : LogEntry) : (logEvent e s).rx = s.rx := rfl
@[simp] theorem logEvent_txResults (e : LogEntry) : (logEvent e s).txResults = s.txResults := rfl
@[simp] theorem logEvent_hostResults (e : LogEntry) : (logEvent e s).hostResults = s.hostResults := rfl
@[simp] theorem logEvent_turnCount (e : LogEntry) : (logEvent e s).turnCount = s.turnCount := rfl
@[simp] theorem logEvent_rxCount (e : LogEntry) : (logEvent e s).rxCount = s.rxCount := rfl
@[simp] theorem logEvent_txCount (e : LogEntry) : (logEvent e s).txCount = s.txCount := rfl

/-! ### clearFrame -/

@[simp] theorem clearFrame_cfg : (clearFrame s).cfg = s.cfg := rfl
@[simp] theorem clearFrame_x : (clearFrame s).x = s.x := rfl
@[simp] theorem clearFrame_st : (clearFrame s).st = .awaitAddress := rfl
@[simp] theorem clearFrame_buf : (clearFrame s).buf = [] := rfl
@[simp] theorem clearFrame_tx : (clearFrame s).tx = s.tx := rfl
@[simp] theorem clearFrame_run : (clearFrame s).run = s.run := rfl
@[simp] theorem clearFrame_stopReq : (clearFrame s).stopReq = s.stopReq := rfl
@[simp] theorem clearFrame_evlog : (clearFrame s).evlog = s.evlog := rfl
@[simp] theorem clearFrame_turns : (clearFrame s).turns = s.turns := rfl
@[simp] theorem clearFrame_rx : (clearFrame s).rx = s.rx := rfl
@[simp] theorem clearFrame_txResults : (clearFrame s).txResults = s.txResults := rfl
@[simp] theorem clearFrame_hostResults : (clearFrame s).hostResults = s.hostResults := rfl
@[simp] theorem clearFrame_turnCount : (clearFrame s).turnCount = s.turnCount := rfl
@[simp] theorem clearFrame_rxCount : (clearFrame s).rxCount = s.rxCount := rfl
@[simp] theorem clearFrame_txCount : (clearFrame s).txCount = s.txCount := rfl

/-! ### discard -/

@[simp] theorem discard_cfg (k : DiscardKind) : (discard k s).cfg = s.cfg := rfl
@[simp] theorem discard_x (k : DiscardKind) : (discard k s).x = s.x := rfl
@[simp] theorem discard_st (k : DiscardKind) : (discard k s).st = .awaitAddress := rfl
@[simp] theorem discard_buf (k : DiscardKind) : (discard k s).buf = [] := rfl
@[simp] theorem discard_tx (k : DiscardKind) : (discard k s).tx = s.tx := rfl
@[simp] theorem discard_run (k : DiscardKind) : (discard k s).run = s.run := rfl
@[simp] theorem discard_stopReq (k : DiscardKind) : (discard k s).stopReq = s.stopReq := rfl
@[simp] theorem discard_evlog (k : DiscardKind) : (discard k s).evlog = s.evlog ++ [.discard k] := rfl
@[simp] theorem discard_turns (k : DiscardKind) : (discard k s).turns = s.turns := rfl
@[simp] theorem discard_rx (k : DiscardKind) : (discard k s).rx = s.rx := rfl
@[simp] theorem discard_txResults (k : DiscardKind) : (discard k s).txResults = s.txResults := rfl
@[simp] theorem discard_hostResults (k : DiscardKind) : (discard k s).hostResults = s.hostResults := rfl
@[simp] theorem discard_turnCount (k : DiscardKind) : (discard k s).turnCount = s.turnCount := rfl
@[simp] theorem discard_rxCount (k : DiscardKind) : (discard k s).rxCount = s.rxCount := rfl
@[simp] theorem discard_txCount (k : DiscardKind) : (discard k s).txCount = s.txCount := rfl

/-! ### setStopRequest -/

@[simp] theorem setStopRequest_cfg : (setStopRequest s).cfg = s.cfg := rfl
@[simp] theorem setStopRequest_x : (setStopRequest s).x = s.x := rfl
@[simp] theorem setStopRequest_st : (setStopRequest s).st = s.st := rfl
@[simp] theorem setStopRequest_buf : (setStopRequest s).buf = s.buf := rfl
@[simp] theorem setStopRequest_tx : (setStopRequest s).tx = s.tx := rfl
@[simp] theorem setStopRequest_run : (setStopRequest s).run = s.run := rfl
@[simp] theorem setStopRequest_stopReq : (setStopRequest s).stopReq = true := rfl
@[simp] theorem setStopRequest_evlog : (setStopRequest s).evlog = s.evlog := rfl
@[simp] theorem setStopRequest_turns : (setStopRequest s).turns = s.turns := rfl
@[simp] theorem setStopRequest_rx : (setStopRequest s).rx = s.rx := rfl
@[simp] theorem setStopRequest_txResults : (setStopRequest s).txResults = s.txResults := rfl
@[simp] theorem setStopRequest_hostResults : (setStopRequest s).hostResults = s.hostResults := rfl
@[simp] theorem setStopRequest_turnCount : (setStopRequest s).turnCount = s.turnCount := rfl
@[simp] theorem setStopRequest_rxCount : (setStopRequest s).rxCount = s.rxCount := rfl
@[simp] theorem setStopRequest_txCount : (setStopRequest s).txCount = s.txCount := rfl

/-! ### stopWorker -/

@[simp] theorem stopWorker_cfg : (stopWorker s).cfg = s.cfg := rfl
@[simp] theorem stopWorker_x : (stopWorker s).x = s.x := rfl
@[simp] theorem stopWorker_st : (stopWorker s).st = s.st := rfl
@[simp] theorem stopWorker_buf : (stopWorker s).buf = s.buf := rfl
@[simp] theorem stopWorker_tx : (stopWorker s).tx = s.tx := rfl
@[simp] theorem stopWorker_run : (stopWorker s).run = .stopped := rfl
@[simp] theorem stopWorker_stopReq : (stopWorker s).stopReq = s.stopReq := rfl
@[simp] theorem stopWorker_evlog : (stopWorker s).evlog = s.evlog := rfl
@[simp] theorem stopWorker_turns : (stopWorker s).turns = s.turns := rfl
@[simp] theorem stopWorker_rx : (stopWorker s).rx = s.rx := rfl
@[simp] theorem stopWorker_txResults : (stopWorker s).txResults = s.txResults := rfl
@[simp] theorem stopWorker_hostResults : (stopWorker s).hostResults = s.hostResults := rfl
@[simp] theorem stopWorker_turnCount : (stopWorker s).turnCount = s.turnCount := rfl
@[simp] theorem stopWorker_rxCount : (stopWorker s).rxCount = s.rxCount := rfl
@[simp] theorem stopWorker_txCount : (stopWorker s).txCount = s.txCount := rfl

/-! ### failLink -/

@[simp] theorem failLink_cfg : (failLink s).cfg = s.cfg := rfl
@[simp] theorem failLink_x : (failLink s).x = s.x := rfl
@[simp] theorem failLink_st : (failLink s).st = s.st := rfl
@[simp] theorem failLink_buf : (failLink s).buf = s.buf := rfl
@[simp] theorem failLink_tx : (failLink s).tx = s.tx := rfl
@[simp] theorem failLink_run : (failLink s).run = .linkFailed := rfl
@[simp] theorem failLink_stopReq : (failLink s).stopReq = s.stopReq := rfl
@[simp] theorem failLink_evlog : (failLink s).evlog = s.evlog := rfl
@[simp] theorem failLink_turns : (failLink s).turns = s.turns := rfl
@[simp] theorem failLink_rx : (failLink s).rx = s.rx := rfl
@[simp] theorem failLink_txResults : (failLink s).txResults = s.txResults := rfl
@[simp] theorem failLink_hostResults : (failLink s).hostResults = s.hostResults := rfl
@[simp] theorem failLink_turnCount : (failLink s).turnCount = s.turnCount := rfl
@[simp] theorem failLink_rxCount : (failLink s).rxCount = s.rxCount := rfl
@[simp] theorem failLink_txCount : (failLink s).txCount = s.txCount := rfl

/-! ### returnToHost -/

@[simp] theorem returnToHost_cfg (r : HostResult) : (returnToHost r s).cfg = s.cfg := rfl
@[simp] theorem returnToHost_x (r : HostResult) : (returnToHost r s).x = s.x := rfl
@[simp] theorem returnToHost_st (r : HostResult) : (returnToHost r s).st = s.st := rfl
@[simp] theorem returnToHost_buf (r : HostResult) : (returnToHost r s).buf = s.buf := rfl
@[simp] theorem returnToHost_tx (r : HostResult) : (returnToHost r s).tx = s.tx := rfl
@[simp] theorem returnToHost_run (r : HostResult) : (returnToHost r s).run = s.run := rfl
@[simp] theorem returnToHost_stopReq (r : HostResult) : (returnToHost r s).stopReq = s.stopReq := rfl
@[simp] theorem returnToHost_evlog (r : HostResult) : (returnToHost r s).evlog = s.evlog := rfl
@[simp] theorem returnToHost_turns (r : HostResult) : (returnToHost r s).turns = s.turns := rfl
@[simp] theorem returnToHost_rx (r : HostResult) : (returnToHost r s).rx = s.rx := rfl
@[simp] theorem returnToHost_txResults (r : HostResult) : (returnToHost r s).txResults = s.txResults := rfl
@[simp] theorem returnToHost_hostResults (r : HostResult) : (returnToHost r s).hostResults = s.hostResults ++ [r] := rfl
@[simp] theorem returnToHost_turnCount (r : HostResult) : (returnToHost r s).turnCount = s.turnCount := rfl
@[simp] theorem returnToHost_rxCount (r : HostResult) : (returnToHost r s).rxCount = s.rxCount := rfl
@[simp] theorem returnToHost_txCount (r : HostResult) : (returnToHost r s).txCount = s.txCount := rfl

/-! ### resetStep -/

@[simp] theorem resetStep_cfg : (resetStep s).cfg = s.cfg := rfl
@[simp] theorem resetStep_x : (resetStep s).x = s.cfg.regInit := rfl
@[simp] theorem resetStep_st : (resetStep s).st = .awaitAddress := rfl
@[simp] theorem resetStep_buf : (resetStep s).buf = [] := rfl
@[simp] theorem resetStep_tx : (resetStep s).tx = [] := rfl
@[simp] theorem resetStep_run : (resetStep s).run = .running := rfl
@[simp] theorem resetStep_stopReq : (resetStep s).stopReq = false := rfl
@[simp] theorem resetStep_evlog : (resetStep s).evlog = [] := rfl
@[simp] theorem resetStep_turns : (resetStep s).turns = s.turns := rfl
@[simp] theorem resetStep_rx : (resetStep s).rx = s.rx := rfl
@[simp] theorem resetStep_txResults : (resetStep s).txResults = s.txResults := rfl
@[simp] theorem resetStep_hostResults : (resetStep s).hostResults = s.hostResults := rfl
@[simp] theorem resetStep_turnCount : (resetStep s).turnCount = s.turnCount := rfl
@[simp] theorem resetStep_rxCount : (resetStep s).rxCount = s.rxCount := rfl
@[simp] theorem resetStep_txCount : (resetStep s).txCount = s.txCount := rfl

/-! ### resultTaken -/

@[simp] theorem resultTaken_cfg : (resultTaken s).cfg = s.cfg := rfl
@[simp] theorem resultTaken_x : (resultTaken s).x = s.x := rfl
@[simp] theorem resultTaken_st : (resultTaken s).st = s.st := rfl
@[simp] theorem resultTaken_buf : (resultTaken s).buf = s.buf := rfl
@[simp] theorem resultTaken_tx : (resultTaken s).tx = s.tx := rfl
@[simp] theorem resultTaken_run : (resultTaken s).run = s.run := rfl
@[simp] theorem resultTaken_stopReq : (resultTaken s).stopReq = s.stopReq := rfl
@[simp] theorem resultTaken_evlog : (resultTaken s).evlog = s.evlog := rfl
@[simp] theorem resultTaken_turns : (resultTaken s).turns = s.turns := rfl
@[simp] theorem resultTaken_rx : (resultTaken s).rx = s.rx := rfl
@[simp] theorem resultTaken_txResults : (resultTaken s).txResults = s.txResults.tail := rfl
@[simp] theorem resultTaken_hostResults : (resultTaken s).hostResults = s.hostResults := rfl
@[simp] theorem resultTaken_turnCount : (resultTaken s).turnCount = s.turnCount := rfl
@[simp] theorem resultTaken_rxCount : (resultTaken s).rxCount = s.rxCount := rfl
@[simp] theorem resultTaken_txCount : (resultTaken s).txCount = s.txCount + 1 := rfl

/-! ### unitTaken -/

@[simp] theorem unitTaken_cfg : (unitTaken s).cfg = s.cfg := rfl
@[simp] theorem unitTaken_x : (unitTaken s).x = s.x := rfl
@[simp] theorem unitTaken_st : (unitTaken s).st = s.st := rfl
@[simp] theorem unitTaken_buf : (unitTaken s).buf = s.buf := rfl
@[simp] theorem unitTaken_tx : (unitTaken s).tx = s.tx := rfl
@[simp] theorem unitTaken_run : (unitTaken s).run = s.run := rfl
@[simp] theorem unitTaken_stopReq : (unitTaken s).stopReq = s.stopReq := rfl
@[simp] theorem unitTaken_evlog : (unitTaken s).evlog = s.evlog := rfl
@[simp] theorem unitTaken_turns : (unitTaken s).turns = s.turns := rfl
@[simp] theorem unitTaken_rx : (unitTaken s).rx = s.rx.tail := rfl
@[simp] theorem unitTaken_txResults : (unitTaken s).txResults = s.txResults := rfl
@[simp] theorem unitTaken_hostResults : (unitTaken s).hostResults = s.hostResults := rfl
@[simp] theorem unitTaken_turnCount : (unitTaken s).turnCount = s.turnCount := rfl
@[simp] theorem unitTaken_rxCount : (unitTaken s).rxCount = s.rxCount + 1 := rfl
@[simp] theorem unitTaken_txCount : (unitTaken s).txCount = s.txCount := rfl

/-! ### turnTaken -/

@[simp] theorem turnTaken_cfg : (turnTaken s).cfg = s.cfg := rfl
@[simp] theorem turnTaken_x : (turnTaken s).x = s.x := rfl
@[simp] theorem turnTaken_st : (turnTaken s).st = s.st := rfl
@[simp] theorem turnTaken_buf : (turnTaken s).buf = s.buf := rfl
@[simp] theorem turnTaken_tx : (turnTaken s).tx = s.tx := rfl
@[simp] theorem turnTaken_run : (turnTaken s).run = s.run := rfl
@[simp] theorem turnTaken_stopReq : (turnTaken s).stopReq = s.stopReq := rfl
@[simp] theorem turnTaken_evlog : (turnTaken s).evlog = s.evlog := rfl
@[simp] theorem turnTaken_turns : (turnTaken s).turns = s.turns.tail := rfl
@[simp] theorem turnTaken_rx : (turnTaken s).rx = s.rx := rfl
@[simp] theorem turnTaken_txResults : (turnTaken s).txResults = s.txResults := rfl
@[simp] theorem turnTaken_hostResults : (turnTaken s).hostResults = s.hostResults := rfl
@[simp] theorem turnTaken_turnCount : (turnTaken s).turnCount = s.turnCount + 1 := rfl
@[simp] theorem turnTaken_rxCount : (turnTaken s).rxCount = s.rxCount := rfl
@[simp] theorem turnTaken_txCount : (turnTaken s).txCount = s.txCount := rfl

/-! ### sent -/

@[simp] theorem sent_cfg (i : Instr) : (sent i s).cfg = s.cfg := rfl
@[simp] theorem sent_x (i : Instr) : (sent i s).x = s.x := rfl
@[simp] theorem sent_st (i : Instr) : (sent i s).st = s.st := rfl
@[simp] theorem sent_buf (i : Instr) : (sent i s).buf = s.buf := rfl
@[simp] theorem sent_tx (i : Instr) : (sent i s).tx = s.tx ++ encode s.cfg i := rfl
@[simp] theorem sent_run (i : Instr) : (sent i s).run = s.run := rfl
@[simp] theorem sent_stopReq (i : Instr) : (sent i s).stopReq = s.stopReq := rfl
@[simp] theorem sent_evlog (i : Instr) : (sent i s).evlog = s.evlog := rfl
@[simp] theorem sent_turns (i : Instr) : (sent i s).turns = s.turns := rfl
@[simp] theorem sent_rx (i : Instr) : (sent i s).rx = s.rx := rfl
@[simp] theorem sent_txResults (i : Instr) : (sent i s).txResults = s.txResults.tail := rfl
@[simp] theorem sent_hostResults (i : Instr) : (sent i s).hostResults = s.hostResults := rfl
@[simp] theorem sent_turnCount (i : Instr) : (sent i s).turnCount = s.turnCount := rfl
@[simp] theorem sent_rxCount (i : Instr) : (sent i s).rxCount = s.rxCount := rfl
@[simp] theorem sent_txCount (i : Instr) : (sent i s).txCount = s.txCount + 1 := rfl

/-! ### What is next, of a state with some other field changed

Each of the three choices reads its own list and its own count alone. -/

@[simp] theorem nextTurn_emit (bs : List Byte) : nextTurn (emit bs s) = nextTurn s := rfl
@[simp] theorem nextUnit_emit (bs : List Byte) : nextUnit (emit bs s) = nextUnit s := rfl
@[simp] theorem nextResult_emit (bs : List Byte) : nextResult (emit bs s) = nextResult s := rfl
@[simp] theorem nextTurn_logEvent (e : LogEntry) : nextTurn (logEvent e s) = nextTurn s := rfl
@[simp] theorem nextUnit_logEvent (e : LogEntry) : nextUnit (logEvent e s) = nextUnit s := rfl
@[simp] theorem nextResult_logEvent (e : LogEntry) : nextResult (logEvent e s) = nextResult s := rfl
@[simp] theorem nextTurn_clearFrame : nextTurn (clearFrame s) = nextTurn s := rfl
@[simp] theorem nextUnit_clearFrame : nextUnit (clearFrame s) = nextUnit s := rfl
@[simp] theorem nextResult_clearFrame : nextResult (clearFrame s) = nextResult s := rfl
@[simp] theorem nextTurn_discard (k : DiscardKind) : nextTurn (discard k s) = nextTurn s := rfl
@[simp] theorem nextUnit_discard (k : DiscardKind) : nextUnit (discard k s) = nextUnit s := rfl
@[simp] theorem nextResult_discard (k : DiscardKind) : nextResult (discard k s) = nextResult s := rfl
@[simp] theorem nextTurn_setStopRequest : nextTurn (setStopRequest s) = nextTurn s := rfl
@[simp] theorem nextUnit_setStopRequest : nextUnit (setStopRequest s) = nextUnit s := rfl
@[simp] theorem nextResult_setStopRequest : nextResult (setStopRequest s) = nextResult s := rfl
@[simp] theorem nextTurn_stopWorker : nextTurn (stopWorker s) = nextTurn s := rfl
@[simp] theorem nextUnit_stopWorker : nextUnit (stopWorker s) = nextUnit s := rfl
@[simp] theorem nextResult_stopWorker : nextResult (stopWorker s) = nextResult s := rfl
@[simp] theorem nextTurn_failLink : nextTurn (failLink s) = nextTurn s := rfl
@[simp] theorem nextUnit_failLink : nextUnit (failLink s) = nextUnit s := rfl
@[simp] theorem nextResult_failLink : nextResult (failLink s) = nextResult s := rfl
@[simp] theorem nextTurn_returnToHost (r : HostResult) : nextTurn (returnToHost r s) = nextTurn s := rfl
@[simp] theorem nextUnit_returnToHost (r : HostResult) : nextUnit (returnToHost r s) = nextUnit s := rfl
@[simp] theorem nextResult_returnToHost (r : HostResult) : nextResult (returnToHost r s) = nextResult s := rfl
@[simp] theorem nextTurn_resetStep : nextTurn (resetStep s) = nextTurn s := rfl
@[simp] theorem nextUnit_resetStep : nextUnit (resetStep s) = nextUnit s := rfl
@[simp] theorem nextResult_resetStep : nextResult (resetStep s) = nextResult s := rfl
@[simp] theorem nextTurn_resultTaken : nextTurn (resultTaken s) = nextTurn s := rfl
@[simp] theorem nextUnit_resultTaken : nextUnit (resultTaken s) = nextUnit s := rfl
@[simp] theorem nextTurn_unitTaken : nextTurn (unitTaken s) = nextTurn s := rfl
@[simp] theorem nextResult_unitTaken : nextResult (unitTaken s) = nextResult s := rfl
@[simp] theorem nextUnit_turnTaken : nextUnit (turnTaken s) = nextUnit s := rfl
@[simp] theorem nextResult_turnTaken : nextResult (turnTaken s) = nextResult s := rfl
@[simp] theorem nextTurn_sent (i : Instr) : nextTurn (sent i s) = nextTurn s := rfl
@[simp] theorem nextUnit_sent (i : Instr) : nextUnit (sent i s) = nextUnit s := rfl

end Sys2Proof.Machine
end

