-- ==== Sys2Proof/Laws/Store.lean ====
section
/-! SUPPORT. The register store: what a read gives after a write, and that every operation keeps the canonical form
(`Memory.wf`) and the range of existing cells (`Memory.within`). -/

namespace Sys2Proof

/-! ### Canonical form -/

theorem Memory.wf_nil : Memory.wf [] := ⟨List.Pairwise.nil, by simp⟩

theorem Memory.wf_tail {p : Nat × Word} {r : Memory} (h : Memory.wf (p :: r)) : Memory.wf r :=
  ⟨(List.pairwise_cons.mp h.1).2, fun q hq => h.2 q (List.mem_cons_of_mem _ hq)⟩

theorem Memory.wf_cons {p : Nat × Word} {r : Memory} :
    Memory.wf (p :: r) ↔ (∀ q ∈ r, p.1 < q.1) ∧ p.2 ≠ unlistedCell ∧ Memory.wf r := by
  simp only [Memory.wf, List.pairwise_cons, List.forall_mem_cons]
  tauto

theorem Memory.mem_put {q : Nat × Word} {a : Nat} {v : Word} {r : Memory} (h : q ∈ Memory.put a v r) :
    q = (a, v) ∨ q ∈ r := by
  unfold Memory.put at h
  split at h
  · exact .inr h
  · simpa using h

theorem Memory.mem_write {m : Memory} {a : Nat} {v : Word} {q : Nat × Word} (h : q ∈ Memory.write m a v) :
    q = (a, v) ∨ q ∈ m := by
  induction m with
  | nil => exact Memory.mem_put h
  | cons p r ih =>
    obtain ⟨b, w⟩ := p
    simp only [Memory.write] at h
    split at h
    · exact Memory.mem_put h
    · split at h
      · rcases Memory.mem_put h with h | h
        · exact .inl h
        · exact .inr (List.mem_cons_of_mem _ h)
      · rcases List.mem_cons.mp h with h | h
        · exact .inr (by simp [h])
        · rcases ih h with h | h
          · exact .inl h
          · exact .inr (List.mem_cons_of_mem _ h)

theorem Memory.put_wf {a : Nat} {v : Word} {r : Memory} (hr : r.wf) (ha : ∀ q ∈ r, a < q.1) :
    (Memory.put a v r).wf := by
  unfold Memory.put
  split
  · exact hr
  · exact Memory.wf_cons.mpr ⟨ha, by assumption, hr⟩

/-- A write keeps the canonical form. -/
theorem Memory.write_wf {m : Memory} (hm : m.wf) (a : Nat) (v : Word) : (m.write a v).wf := by
  induction m with
  | nil => exact Memory.put_wf Memory.wf_nil (by simp)
  | cons p r ih =>
    obtain ⟨b, w⟩ := p
    obtain ⟨hb, hw, hr⟩ := Memory.wf_cons.mp hm
    simp only [Memory.write]
    split
    next hlt =>
      refine Memory.put_wf hm fun q hq => ?_
      rcases List.mem_cons.mp hq with rfl | hq
      · exact hlt
      · exact hlt.trans (hb q hq)
    next hlt =>
      split
      next heq => exact Memory.put_wf hr fun q hq => heq ▸ hb q hq
      next hne =>
        refine Memory.wf_cons.mpr ⟨fun q hq => ?_, hw, ih hr⟩
        rcases Memory.mem_write hq with rfl | hq
        · show b < a
          omega
        · exact hb q hq

theorem Memory.write_within {m : Memory} {n a : Nat} (hm : m.within n) (ha : a < n) (v : Word) :
    (m.write a v).within n := by
  intro q hq
  rcases Memory.mem_write hq with rfl | hq
  · exact ha
  · exact hm q hq

/-- Writing a run of cells keeps the canonical form. -/
theorem Memory.writeMany_wf {m : Memory} (hm : m.wf) (a : Nat) (vs : List Word) : (m.writeMany a vs).wf := by
  induction vs generalizing m a with
  | nil => exact hm
  | cons v vs ih => exact ih (Memory.write_wf hm a v) (a + 1)

theorem Memory.writeMany_within {m : Memory} {n : Nat} (hm : m.within n) {a : Nat} {vs : List Word}
    (ha : a + vs.length ≤ n) : (m.writeMany a vs).within n := by
  induction vs generalizing m a with
  | nil => exact hm
  | cons v vs ih =>
    simp only [List.length_cons] at ha
    exact ih (Memory.write_within hm (by omega) v) (by omega)

/-! ### Reading -/

theorem Memory.read_of_lt {m : Memory} {a : Nat} (h : ∀ q ∈ m, a < q.1) : m.read a = unlistedCell := by
  induction m with
  | nil => rfl
  | cons p r ih =>
    obtain ⟨b, w⟩ := p
    have hb : a < b := h (b, w) List.mem_cons_self
    simp only [Memory.read, if_neg (Nat.ne_of_gt hb)]
    exact ih fun q hq => h q (List.mem_cons_of_mem _ hq)

theorem Memory.read_put {a : Nat} {v : Word} {r : Memory} (h : ∀ q ∈ r, a < q.1) (j : Nat) :
    (Memory.put a v r).read j = if j = a then v else r.read j := by
  unfold Memory.put
  by_cases hj : j = a
  · subst hj
    split
    next hv => rw [Memory.read_of_lt h, if_pos rfl, hv]
    next => simp [Memory.read]
  · rw [if_neg hj]
    split
    · rfl
    · simp [Memory.read, Ne.symm hj]

/-- What every cell reads as after one write: the cell written, the value; every other cell, what it held. -/
theorem Memory.read_write {m : Memory} (hm : m.wf) (a : Nat) (v : Word) (j : Nat) :
    (m.write a v).read j = if j = a then v else m.read j := by
  induction m with
  | nil => exact Memory.read_put (by simp) j
  | cons p r ih =>
    obtain ⟨b, w⟩ := p
    obtain ⟨hb, hw, hr⟩ := Memory.wf_cons.mp hm
    simp only [Memory.write]
    split
    next hlt =>
      refine Memory.read_put (fun q hq => ?_) j
      rcases List.mem_cons.mp hq with rfl | hq
      · exact hlt
      · exact hlt.trans (hb q hq)
    next hlt =>
      split
      next heq =>
        subst heq
        rw [Memory.read_put hb]
        by_cases hj : j = a
        · simp [hj]
        · simp [Memory.read, hj, Ne.symm hj]
      next hne =>
        simp only [Memory.read, ih hr]
        by_cases hj : b = j
        · subst hj
          simp [show ¬ b = a by omega]
        · simp [hj]

/-- What every cell reads as after a run is written. -/
theorem Memory.read_writeMany {m : Memory} (hm : m.wf) (a : Nat) (vs : List Word) (j : Nat) :
    (m.writeMany a vs).read j = if a ≤ j ∧ j < a + vs.length then vs.getD (j - a) 0 else m.read j := by
  induction vs generalizing m a with
  | nil => simp [Memory.writeMany]
  | cons v vs ih =>
    simp only [Memory.writeMany, List.length_cons]
    rw [ih (Memory.write_wf hm a v), Memory.read_write hm]
    by_cases hj : j = a
    · subst hj
      simp
    · by_cases hlt : a ≤ j ∧ j < a + (vs.length + 1)
      · obtain ⟨k, rfl⟩ : ∃ k, j = a + 1 + k := ⟨j - (a + 1), by omega⟩
        simp only [if_pos hlt, show a + 1 ≤ a + 1 + k ∧ a + 1 + k < a + 1 + vs.length from ⟨by omega, by omega⟩]
        simp [show a + 1 + k - a = k + 1 by omega]
      · rw [if_neg hlt, if_neg (by omega), if_neg hj]

@[simp] theorem Memory.readMany_length (m : Memory) (a n : Nat) : (m.readMany a n).length = n := by
  induction n generalizing a with
  | zero => rfl
  | succ n ih => simp [Memory.readMany, ih]

/-- A run of cells read is each cell read, in ascending order. -/
theorem Memory.readMany_eq_map (m : Memory) (a n : Nat) :
    m.readMany a n = (List.range n).map (fun k => m.read (a + k)) := by
  induction n generalizing a with
  | zero => rfl
  | succ n ih =>
    rw [Memory.readMany, ih, List.range_succ_eq_map, List.map_cons, List.map_map]
    refine congrArg _ (List.map_congr_left fun k _ => ?_)
    simp [Nat.add_assoc, Nat.add_comm 1]

end Sys2Proof

namespace Sys2Proof.Machine

/-! ### The three store operations -/

theorem storeWriteOne_cases {c : Config} {m : Memory} {a v : Word} {m' : Memory}
    (h : storeWriteOne c m a v = .ok m') : a.toNat < c.regCount ∧ m' = m.write a.toNat v := by
  unfold storeWriteOne at h
  split at h
  · cases h
  · cases h
    exact ⟨by omega, rfl⟩

theorem storeWriteMany_cases {c : Config} {m : Memory} {a : Word} {vs : List Word} {m' : Memory}
    (h : storeWriteMany c m a vs = .ok m') :
    a.toNat + vs.length ≤ c.regCount ∧ m' = m.writeMany a.toNat vs := by
  unfold storeWriteMany at h
  split at h
  · cases h
  · cases h
    exact ⟨by omega, rfl⟩

theorem storeRead_cases {c : Config} {m : Memory} {a n : Word} {vs : List Word}
    (h : storeRead c m a n = .ok vs) :
    n.toNat ≠ 0 ∧ n.toNat ≤ c.maxReadQty ∧ a.toNat + n.toNat ≤ c.regCount ∧ vs = m.readMany a.toNat n.toNat := by
  unfold storeRead at h
  split at h
  · cases h
  · cases h
    exact ⟨by omega, by omega, by omega, rfl⟩

theorem storeRead_of_inRange {c : Config} {m : Memory} {a n : Word}
    (h1 : ¬ (n.toNat < 1 ∨ c.maxReadQty < n.toNat)) (h2 : ¬ c.regCount < a.toNat + n.toNat) :
    storeRead c m a n = .ok (m.readMany a.toNat n.toNat) := by
  unfold storeRead
  rw [if_neg (by omega)]

theorem storeWriteOne_of_inRange {c : Config} {m : Memory} {a v : Word} (h : ¬ c.regCount ≤ a.toNat) :
    storeWriteOne c m a v = .ok (m.write a.toNat v) := by
  unfold storeWriteOne
  rw [if_neg (by omega)]

theorem storeWriteMany_of_inRange {c : Config} {m : Memory} {a : Word} {vs : List Word}
    (h : a.toNat + vs.length ≤ c.regCount) : storeWriteMany c m a vs = .ok (m.writeMany a.toNat vs) := by
  unfold storeWriteMany
  rw [if_neg (by omega)]

theorem storeWriteOne_keeps {c : Config} {m : Memory} {a v : Word} {m' : Memory} (hm : m.wf)
    (hn : m.within c.regCount) (h : storeWriteOne c m a v = .ok m') : m'.wf ∧ m'.within c.regCount := by
  obtain ⟨ha, rfl⟩ := storeWriteOne_cases h
  exact ⟨Memory.write_wf hm _ _, Memory.write_within hn ha _⟩

theorem storeWriteMany_keeps {c : Config} {m : Memory} {a : Word} {vs : List Word} {m' : Memory} (hm : m.wf)
    (hn : m.within c.regCount) (h : storeWriteMany c m a vs = .ok m') : m'.wf ∧ m'.within c.regCount := by
  obtain ⟨ha, rfl⟩ := storeWriteMany_cases h
  exact ⟨Memory.writeMany_wf hm _ _, Memory.writeMany_within hn ha⟩

/-- The reset state's store has the canonical form. -/
theorem reset_x_wf : State.reset.x.wf := Memory.wf_nil

end Sys2Proof.Machine
end

