-- ==== Sys2Proof/Laws/Ops.lean ====
section
/-! SUPPORT. For each shared operation, once, everything it can do. -/

namespace Sys2Proof.Machine

variable {s : State}

/-! ### `Send` -/

theorem writeSucceeds_iff : writeSucceeds s = true ↔ nextResult s = .ok := by simp [writeSucceeds]

/-- The next write fails exactly when it does not succeed. -/
theorem writeSucceeds_eq_false_iff : writeSucceeds s = false ↔ ∃ k, nextResult s = .fail k := by
  unfold writeSucceeds
  cases nextResult s <;> simp

/-- `Send` with a write that succeeds: the whole response on `tx`. -/
theorem send_of_succeeds (h : writeSucceeds s = true) (resp : List Byte) :
    send resp s = (true, { resultTaken s with tx := s.tx ++ resp }) := by
  unfold send
  rw [writeSucceeds_iff.mp h]
  rfl

/-- `Send` with a write that fails: a prefix of the response on `tx`, and the link failed. -/
theorem send_of_fails {k : Nat} (h : nextResult s = .fail k) (resp : List Byte) :
    send resp s = (false, { resultTaken s with tx := s.tx ++ failedPrefix k resp, run := .linkFailed }) := by
  unfold send
  rw [h]
  rfl

/-- A failed write leaves exactly the first `k` bytes, for every `k` that the spec admits. -/
theorem failedPrefix_of_lt {k : Nat} {resp : List Byte} (h : k < resp.length) :
    failedPrefix k resp = resp.take k := by
  unfold failedPrefix
  rw [Nat.min_eq_left (by omega)]

/-- Everything `Send` can do. -/
theorem send_cases (resp : List Byte) (s : State) :
    (writeSucceeds s = true ∧ send resp s = (true, { resultTaken s with tx := s.tx ++ resp })) ∨
    ∃ k, nextResult s = .fail k ∧
      send resp s = (false, { resultTaken s with tx := s.tx ++ failedPrefix k resp, run := .linkFailed }) := by
  rcases h : writeSucceeds s with _ | _
  · obtain ⟨k, hk⟩ := writeSucceeds_eq_false_iff.mp h
    exact .inr ⟨k, hk, send_of_fails hk resp⟩
  · exact .inl ⟨rfl, send_of_succeeds h resp⟩

/-! ### Answering and taking a protocol exception -/

theorem answer_of_succeeds (h : writeSucceeds s = true) (p : List Byte) (req : Request) :
    answer p req s = { resultTaken s with tx := s.tx ++ frame s.cfg s.cfg.unitAddress p,
                                          evlog := s.evlog ++ [.notify req] } := by
  simp [answer, sendPdu, send_of_succeeds h, logEvent]

theorem answer_of_fails {k : Nat} (h : nextResult s = .fail k) (p : List Byte) (req : Request) :
    answer p req s = { resultTaken s with tx := s.tx ++ failedPrefix k (frame s.cfg s.cfg.unitAddress p),
                                          run := .linkFailed } := by
  simp [answer, sendPdu, send_of_fails h]

theorem protocolException_of_succeeds (h : writeSucceeds s = true) (fc : Byte) (r : Reason) :
    protocolException fc r s =
      { resultTaken s with tx := s.tx ++ encode s.cfg (.rExc (fc ||| s.cfg.excFlag) r),
                           evlog := s.evlog ++ [.protoExc fc r] } := by
  have h' : writeSucceeds (logEvent (.protoExc fc r) s) = true := h
  unfold protocolException sendPdu
  rw [send_of_succeeds h']
  rfl

theorem protocolException_of_fails {k : Nat} (h : nextResult s = .fail k) (fc : Byte) (r : Reason) :
    protocolException fc r s =
      { resultTaken s with tx := s.tx ++ failedPrefix k (encode s.cfg (.rExc (fc ||| s.cfg.excFlag) r)),
                           run := .linkFailed, evlog := s.evlog ++ [.protoExc fc r] } := by
  have h' : nextResult (logEvent (.protoExc fc r) s) = .fail k := h
  unfold protocolException sendPdu
  rw [send_of_fails h']
  rfl

theorem sendPdu_of_succeeds (h : writeSucceeds s = true) (p : List Byte) :
    sendPdu p s = (true, { resultTaken s with tx := s.tx ++ frame s.cfg s.cfg.unitAddress p }) :=
  send_of_succeeds h _

theorem sendPdu_of_fails {k : Nat} (h : nextResult s = .fail k) (p : List Byte) :
    sendPdu p s = (false, { resultTaken s with tx := s.tx ++ failedPrefix k (frame s.cfg s.cfg.unitAddress p),
                                               run := .linkFailed }) :=
  send_of_fails h _

/-! ### The assembler's buffer -/

theorem appendByte_cases {b : Byte} {s' : State} (h : appendByte b s = some s') :
    s.buf.length < s.cfg.bufCap ∧ s' = { s with buf := s.buf ++ [b] } := by
  unfold appendByte at h
  split at h
  · exact ⟨by assumption, (Option.some.inj h).symm⟩
  · cases h

theorem appendByte_of_lt {b : Byte} (h : s.buf.length < s.cfg.bufCap) :
    appendByte b s = some { s with buf := s.buf ++ [b] } := by
  unfold appendByte
  rw [if_pos h]

end Sys2Proof.Machine
end

