-- ==== Sys2Proof/Laws/Exec.lean ====
section
/-! SUPPORT. What an instruction's meaning can do, said once: one inversion lemma per meaning, over one notion of a
response sent. -/

namespace Sys2Proof.Machine

/-- `t` is `s` after one response was sent: the bytes of `resp`, the log entries `always` before and `ifSent` after it,
and the store `x'`. With a failed write: a prefix of it, no `ifSent`, and the link failed. -/
def Responded (x' : Memory) (resp : List Byte) (always ifSent : List LogEntry) (s t : State) : Prop :=
  (writeSucceeds s = true ∧
    t = { resultTaken s with x := x', tx := s.tx ++ resp, evlog := s.evlog ++ (always ++ ifSent) }) ∨
  ∃ k, nextResult s = .fail k ∧
    t = { resultTaken s with x := x', tx := s.tx ++ failedPrefix k resp, run := .linkFailed,
                             evlog := s.evlog ++ always }

theorem responded_sendPdu (i : Instr) (s : State) (h : addressByte s.cfg i = s.cfg.unitAddress) :
    Responded s.x (encode s.cfg i) [] [] s (sendPdu (pdu s.cfg i) s).2 := by
  unfold encode
  rw [h]
  rcases hw : writeSucceeds s with _ | _
  · obtain ⟨k, hk⟩ := writeSucceeds_eq_false_iff.mp hw
    exact .inr ⟨k, hk, by simp [sendPdu_of_fails hk]⟩
  · exact .inl ⟨hw, by simp [sendPdu_of_succeeds hw]⟩

theorem responded_answer (i : Instr) (req : Request) (x' : Memory) (s : State)
    (h : addressByte s.cfg i = s.cfg.unitAddress) :
    Responded x' (encode s.cfg i) [] [.notify req] s (answer (pdu s.cfg i) req { s with x := x' }) := by
  unfold encode
  rw [h]
  rcases hw : writeSucceeds s with _ | _
  · obtain ⟨k, hk⟩ := writeSucceeds_eq_false_iff.mp hw
    have hk' : nextResult { s with x := x' } = .fail k := hk
    exact .inr ⟨k, hk, by rw [answer_of_fails hk']; simp [resultTaken]⟩
  · have hw' : writeSucceeds { s with x := x' } = true := hw
    exact .inl ⟨hw, by rw [answer_of_succeeds hw']; simp [resultTaken]⟩

theorem responded_protocolException (fc : Byte) (r : Reason) (s : State) :
    Responded s.x (encode s.cfg (.rExc (fc ||| s.cfg.excFlag) r)) [.protoExc fc r] [] s (protocolException fc r s) := by
  rcases hw : writeSucceeds s with _ | _
  · obtain ⟨k, hk⟩ := writeSucceeds_eq_false_iff.mp hw
    exact .inr ⟨k, hk, by simp [protocolException_of_fails hk]⟩
  · exact .inl ⟨hw, by simp [protocolException_of_succeeds hw]⟩

/-- What the dispatcher does with a request or a response, as data: the store after it, the response it sends, and the
log entries written whatever the write comes to and only after a sent response. -/
structure Effect where
  x : Memory
  resp : Instr
  always : List LogEntry
  ifSent : List LogEntry

/-- The effect of a protocol exception. -/
def excEffect (fc : Byte) (r : Reason) (s : State) : Effect :=
  ⟨s.x, .rExc (fc ||| s.cfg.excFlag) r, [.protoExc fc r], []⟩

/-- The effect of each instruction. -/
def effect (i : Instr) (s : State) : Effect :=
  match i with
  | .rdh unit a q =>
    if q.toNat < 1 ∨ s.cfg.maxReadQty < q.toNat then excEffect s.cfg.fcRead .illegalDataValue s
    else if s.cfg.regCount < a.toNat + q.toNat then excEffect s.cfg.fcRead .illegalDataAddress s
    else ⟨s.x, .rRdh (s.x.readMany a.toNat q.toNat), [], [.notify (.readReq unit s.cfg.fcRead a q)]⟩
  | .wsr unit a v =>
    if s.cfg.regCount ≤ a.toNat then excEffect s.cfg.fcWriteSingle .illegalDataAddress s
    else ⟨s.x.write a.toNat v, .rWsr a v, [], [.notify (.writeOneReq unit s.cfg.fcWriteSingle a v)]⟩
  | .wmr unit a q bc data =>
    if q.toNat < 1 ∨ s.cfg.maxWriteQty < q.toNat ∨ bc.toNat ≠ 2 * q.toNat then
      excEffect s.cfg.fcWriteMultiple .illegalDataValue s
    else if s.cfg.regCount < a.toNat + q.toNat then excEffect s.cfg.fcWriteMultiple .illegalDataAddress s
    else ⟨s.x.writeMany a.toNat ((bytesValues data).take q.toNat), .rWmr a q, [],
      [.notify (.writeManyReq unit s.cfg.fcWriteMultiple a q ((bytesValues data).take q.toNat))]⟩
  | .illegalFunction _ code _ => excEffect code .illegalFunction s
  | .rRdh vs => ⟨s.x, .rRdh vs, [], []⟩
  | .rWsr a v => ⟨s.x, .rWsr a v, [], []⟩
  | .rWmr a q => ⟨s.x, .rWmr a q, [], []⟩
  | .rExc code r => ⟨s.x, .rExc code r, [], []⟩

/-- Everything `exec` can do: it answers a next state, in which exactly one response was sent, with the store and the
log entries of the instruction's effect. -/
theorem exec_responded (i : Instr) (s : State) :
    ∃ t, exec i s = .next t ∧
      Responded (effect i s).x (encode s.cfg (effect i s).resp) (effect i s).always (effect i s).ifSent s t := by
  cases i with
  | rdh unit a q =>
    simp only [exec, execRdh, effect]
    split
    · exact ⟨_, rfl, responded_protocolException _ _ s⟩
    · split
      · exact ⟨_, rfl, responded_protocolException _ _ s⟩
      · rw [storeRead_of_inRange (by assumption) (by assumption)]
        exact ⟨_, rfl, responded_answer _ _ s.x s rfl⟩
  | wsr unit a v =>
    simp only [exec, execWsr, effect]
    split
    · exact ⟨_, rfl, responded_protocolException _ _ s⟩
    · rw [storeWriteOne_of_inRange (by assumption)]
      exact ⟨_, rfl, responded_answer _ _ _ s rfl⟩
  | wmr unit a q bc data =>
    simp only [exec, execWmr, effect]
    split
    · exact ⟨_, rfl, responded_protocolException _ _ s⟩
    · split
      · exact ⟨_, rfl, responded_protocolException _ _ s⟩
      · rw [storeWriteMany_of_inRange (by rw [List.length_take]; omega)]
        exact ⟨_, rfl, responded_answer _ _ _ s rfl⟩
  | illegalFunction unit code payload => exact ⟨_, rfl, responded_protocolException _ _ s⟩
  | rRdh vs => exact ⟨_, rfl, responded_sendPdu _ s rfl⟩
  | rWsr a v => exact ⟨_, rfl, responded_sendPdu _ s rfl⟩
  | rWmr a q => exact ⟨_, rfl, responded_sendPdu _ s rfl⟩
  | rExc code r => exact ⟨_, rfl, responded_sendPdu _ s rfl⟩

/-- The inversion of `exec`: a next state is one response sent. -/
theorem responded_of_exec {i : Instr} {s t : State} (h : exec i s = .next t) :
    Responded (effect i s).x (encode s.cfg (effect i s).resp) (effect i s).always (effect i s).ifSent s t := by
  obtain ⟨t', ht', hr⟩ := exec_responded i s
  rw [h] at ht'
  cases ht'
  exact hr

/-- The fields a response leaves alone. -/
theorem Responded.frame {x' : Memory} {resp : List Byte} {es es' : List LogEntry} {s t : State}
    (h : Responded x' resp es es' s t) :
    t.cfg = s.cfg ∧ t.x = x' ∧ t.st = s.st ∧ t.buf = s.buf ∧ t.stopReq = s.stopReq ∧ t.turns = s.turns ∧
      t.rx = s.rx ∧ t.hostResults = s.hostResults ∧ t.txResults = s.txResults.tail ∧ t.turnCount = s.turnCount ∧
      t.rxCount = s.rxCount ∧ t.txCount = s.txCount + 1 := by
  rcases h with ⟨-, rfl⟩ | ⟨k, -, rfl⟩ <;> exact ⟨rfl, rfl, rfl, rfl, rfl, rfl, rfl, rfl, rfl, rfl, rfl, rfl⟩

end Sys2Proof.Machine
end

