-- ==== Sys2Proof/Laws/PerInstr.lean ====
section
/-! SUPPORT. Statements about all instructions as syntax, made per instruction. -/

namespace Sys2Proof.Laws

/-- The length of each frame in bytes (spec/30_encoding.md R93): 8; 9 and the value bytes; 5 + 2q; 5; and for a code
without a format the general frame's 4 and its payload (R80). -/
def frameLength : Instr → Nat
  | .rdh _ _ _ => 8
  | .wsr _ _ _ => 8
  | .wmr _ _ _ _ data => 9 + data.length
  | .illegalFunction _ _ payload => 4 + payload.length
  | .rRdh values => 5 + 2 * values.length
  | .rWsr _ _ => 8
  | .rWmr _ _ => 8
  | .rExc _ _ => 5

/-- Every frame has the length its format gives it, on every instance. -/
def EncodedLength.Statement (i : Instr) : Prop :=
  ∀ c : Config, (encode c i).length = frameLength i

theorem EncodedLength.rdh (unit : Byte) (addr qty : Word) : EncodedLength.Statement (.rdh unit addr qty) :=
  fun c => by simp [encode, frame_length, pdu, bigEndian, frameLength]

theorem EncodedLength.wsr (unit : Byte) (addr value : Word) : EncodedLength.Statement (.wsr unit addr value) :=
  fun c => by simp [encode, frame_length, pdu, bigEndian, frameLength]

theorem EncodedLength.wmr (unit : Byte) (addr qty : Word) (bc : Byte) (data : List Byte) :
    EncodedLength.Statement (.wmr unit addr qty bc data) :=
  fun c => by
    simp only [encode, frame_length, pdu, bigEndian, frameLength, List.length_cons, List.length_append, List.length_nil]
    omega

theorem EncodedLength.illegalFunction (unit code : Byte) (payload : List Byte) :
    EncodedLength.Statement (.illegalFunction unit code payload) :=
  fun c => by
    simp only [encode, frame_length, pdu, frameLength, List.length_cons]
    omega

theorem EncodedLength.rRdh (values : List Word) : EncodedLength.Statement (.rRdh values) :=
  fun c => by
    simp only [encode, frame_length, pdu, frameLength, List.length_cons, valueBytes_length]
    omega

theorem EncodedLength.rWsr (addr value : Word) : EncodedLength.Statement (.rWsr addr value) :=
  fun c => by simp [encode, frame_length, pdu, bigEndian, frameLength]

theorem EncodedLength.rWmr (addr qty : Word) : EncodedLength.Statement (.rWmr addr qty) :=
  fun c => by simp [encode, frame_length, pdu, bigEndian, frameLength]

theorem EncodedLength.rExc (code : Byte) (reason : Reason) : EncodedLength.Statement (.rExc code reason) :=
  fun c => by simp [encode, frame_length, pdu, frameLength]

end Sys2Proof.Laws
end

