-- ==== Sys2Proof/Laws/Step.lean ====
section
/-! SUPPORT. What a byte, a worker iteration and a step can do: one inversion lemma for each. -/

namespace Sys2Proof.Machine

/-! ### A complete frame -/

theorem endFrame_cases {o : Host.Outcome State Fault Refusal} {t : State} (h : endFrame o = .next t) :
    ∃ t', o = .next t' ∧ t = clearFrame t' := by
  cases o with
  | next s => exact ⟨s, rfl, (Host.Outcome.next.inj h).symm⟩
  | fault r => cases h
  | refused r => cases h

/-- A complete frame never stops the machine: it is executed or discarded. -/
theorem completeFrame_next (s : State) :
    (∃ i t, decode s.cfg .request s.buf = .ok i ∧ exec i s = .next t ∧ completeFrame s = .next (clearFrame t)) ∨
    ((∃ e, decode s.cfg .request s.buf = .error e) ∧ completeFrame s = .next (discard .checksumMismatch s)) := by
  unfold completeFrame
  rcases h : decode s.cfg .request s.buf with e | i
  · exact .inr ⟨⟨e, rfl⟩, rfl⟩
  · obtain ⟨t, ht, -⟩ := exec_responded i s
    exact .inl ⟨i, t, rfl, ht, by simp only [ht]; rfl⟩

/-! ### A byte -/

/-- What a byte can lead to: everything `RxByte` can do when it answers a next state. -/
inductive RxEffect (b : Byte) (s : State) : State → Prop where
  /-- An address byte (R131). -/
  | started (hst : s.st = .awaitAddress) (hb : b = s.cfg.unitAddress) :
      RxEffect b s { s with buf := [b], st := .awaitOperationCode }
  /-- A framing error at byte 0 (R132). -/
  | mismatched (hst : s.st = .awaitAddress) (hb : b ≠ s.cfg.unitAddress) :
      RxEffect b s (discard .addressMismatch s)
  /-- A supported operation code (R134). -/
  | selected (hst : s.st = .awaitOperationCode) (hb : s.cfg.supported b) (hcap : s.buf.length < s.cfg.bufCap) :
      RxEffect b s { s with buf := s.buf ++ [b], st := .accumulating }
  /-- A framing error at byte 1 (R133). -/
  | unsupported (hst : s.st = .awaitOperationCode) (hb : ¬ s.cfg.supported b) :
      RxEffect b s (discard .unsupportedCode s)
  /-- A byte of a frame that stays incomplete (R135). -/
  | accumulated (hst : s.st = .accumulating) (hcap : s.buf.length < s.cfg.bufCap)
      (hlen : expectedLen s.cfg (s.buf ++ [b]) = some .unknown ∨
        ∃ n, expectedLen s.cfg (s.buf ++ [b]) = some (.known n) ∧ s.buf.length + 1 ≠ n) :
      RxEffect b s { s with buf := s.buf ++ [b] }
  /-- The last byte of a frame that decodes, executed (R137, R139). -/
  | executed (hst : s.st = .accumulating) (hcap : s.buf.length < s.cfg.bufCap)
      (hlen : expectedLen s.cfg (s.buf ++ [b]) = some (.known (s.buf.length + 1))) (i : Instr) (t : State)
      (hi : decode s.cfg .request (s.buf ++ [b]) = .ok i) (ht : exec i { s with buf := s.buf ++ [b] } = .next t) :
      RxEffect b s (clearFrame t)
  /-- The last byte of a frame that does not decode (R138). -/
  | corrupted (hst : s.st = .accumulating) (hcap : s.buf.length < s.cfg.bufCap)
      (hlen : expectedLen s.cfg (s.buf ++ [b]) = some (.known (s.buf.length + 1))) (e : DecodeError)
      (he : decode s.cfg .request (s.buf ++ [b]) = .error e) :
      RxEffect b s (discard .checksumMismatch { s with buf := s.buf ++ [b] })

theorem rxByte_cases {b : Byte} {s t : State} (h : rxByte b s = .next t) : RxEffect b s t := by
  unfold rxByte at h
  split at h
  next hst =>
    unfold rxAwaitAddress at h
    split at h <;> cases h
    · exact .started hst (by assumption)
    · exact .mismatched hst (by assumption)
  next hst =>
    unfold rxAwaitOperationCode at h
    split at h
    next hb =>
      split at h
      next s' hs' =>
        obtain ⟨hcap, rfl⟩ := appendByte_cases hs'
        cases h
        exact .selected hst hb hcap
      next => cases h
    next hb =>
      cases h
      exact .unsupported hst hb
  next hst =>
    unfold rxAccumulating at h
    split at h
    next => cases h
    next s' hs' =>
      obtain ⟨hcap, rfl⟩ := appendByte_cases hs'
      split at h
      next => cases h
      next hu =>
        cases h
        exact .accumulated hst hcap (.inl hu)
      next n hn =>
        split at h
        next heq =>
          have heq' : n = s.buf.length + 1 := by simpa using heq.symm
          subst heq'
          rcases completeFrame_next { s with buf := s.buf ++ [b] } with ⟨i, t', hi, ht', hc⟩ | ⟨⟨e, he⟩, hc⟩
          · rw [hc] at h
            cases h
            exact .executed hst hcap hn i t' hi ht'
          · rw [hc] at h
            cases h
            exact .corrupted hst hcap hn e he
        next hne =>
          cases h
          exact .accumulated hst hcap (.inr ⟨n, hn, by simpa using hne⟩)

/-- The converse: each of the effects of a byte happens under its own conditions. -/
theorem rxByte_of_effect {b : Byte} {s t : State} (h : RxEffect b s t) : rxByte b s = .next t := by
  cases h with
  | started hst hb => simp only [rxByte, hst, rxAwaitAddress, if_pos hb]
  | mismatched hst hb => simp only [rxByte, hst, rxAwaitAddress, if_neg hb]
  | selected hst hb hcap =>
    simp only [rxByte, hst, rxAwaitOperationCode, if_pos hb, appendByte_of_lt hcap]
  | unsupported hst hb => simp only [rxByte, hst, rxAwaitOperationCode, if_neg hb]
  | accumulated hst hcap hlen =>
    simp only [rxByte, hst, rxAccumulating, appendByte_of_lt hcap]
    rcases hlen with hu | ⟨n, hn, hne⟩
    · simp only [hu]
    · simp only [hn]
      rw [if_neg (by simpa using hne)]
  | executed hst hcap hlen i t hi ht =>
    simp only [hst] at ht
    simp only [rxByte, hst, rxAccumulating, appendByte_of_lt hcap, hlen, List.length_append, List.length_singleton,
      if_true, completeFrame, hi, ht]
    rfl
  | corrupted hst hcap hlen e he =>
    simp only [rxByte, hst, rxAccumulating, appendByte_of_lt hcap, hlen, List.length_append, List.length_singleton,
      if_true, completeFrame, he]

/-! ### A worker iteration -/

/-- Everything a worker iteration can do when it answers a next state. -/
inductive WorkerEffect (s : State) : State → Prop where
  /-- Outside `Running` nothing happens. -/
  | idle (hrun : s.run ≠ .running) : WorkerEffect s s
  /-- The cooperative stop. -/
  | stopped (hrun : s.run = .running) (hstop : s.stopReq = true) : WorkerEffect s { s with run := .stopped }
  /-- A timeout. -/
  | timedOut (hrun : s.run = .running) (hstop : s.stopReq = false) (hrx : nextUnit s = .timeout) :
      WorkerEffect s (unitTaken s)
  /-- A transport error on read. -/
  | closed (hrun : s.run = .running) (hstop : s.stopReq = false) (hrx : nextUnit s = .closed) :
      WorkerEffect s { unitTaken s with run := .linkFailed }
  /-- A byte. -/
  | byte (b : Byte) (t : State) (hrun : s.run = .running) (hstop : s.stopReq = false)
      (hrx : nextUnit s = .byte b) (ht : RxEffect b (unitTaken s) t) : WorkerEffect s t

theorem workerIteration_cases {s t : State} (h : workerIteration s = .next t) : WorkerEffect s t := by
  unfold workerIteration at h
  split at h
  next hrun =>
    have hrun' : s.run = .running := by simpa [workerEnabled] using hrun
    split at h
    next hstop =>
      cases h
      exact .stopped hrun' hstop
    next hstop =>
      have hstop' : s.stopReq = false := by simpa using hstop
      split at h
      next b hrx => exact .byte b t hrun' hstop' hrx (rxByte_cases h)
      next hrx =>
        cases h
        exact .timedOut hrun' hstop' hrx
      next hrx =>
        cases h
        exact .closed hrun' hstop' hrx
  next hrun =>
    cases h
    exact .idle (by simpa [workerEnabled] using hrun)

/-- The converse: each of the effects of a worker iteration happens under its own conditions. -/
theorem workerIteration_of_effect {s t : State} (h : WorkerEffect s t) : workerIteration s = .next t := by
  cases h with
  | idle hrun => simp [workerIteration, workerEnabled, hrun]
  | stopped hrun hstop => simp [workerIteration, workerEnabled, hrun, hstop, stopWorker]
  | timedOut hrun hstop hrx => simp [workerIteration, workerEnabled, hrun, hstop, hrx]
  | closed hrun hstop hrx => simp [workerIteration, workerEnabled, hrun, hstop, hrx, failLink]
  | byte b t hrun hstop hrx ht =>
    simpa [workerIteration, workerEnabled, hrun, hstop, hrx] using rxByte_of_effect ht

/-! ### A host call -/

/-- A host call hands back one result or sets the stop request; the registers are unchanged, or one store operation's
result. -/
theorem hostStep_cases (call : HostCall) (s : State) :
    hostStep call s = { s with stopReq := true } ∧ call = .hstop ∨
    ∃ r m, hostStep call s = returnToHost r { s with x := m } ∧ call ≠ .hstop ∧
      (m = s.x ∨ (∃ a v, call = .hset a v ∧ storeWriteOne s.cfg s.x a v = .ok m) ∨
        (∃ a vs, call = .hsetm a vs ∧ storeWriteMany s.cfg s.x a vs = .ok m)) := by
  cases call with
  | hget a n =>
    refine .inr ?_
    rcases h : storeRead s.cfg s.x a n with vs | _
    · exact ⟨.cells vs, s.x, by simp only [hostStep, hostGet, h], by simp, .inl rfl⟩
    · exact ⟨.outOfRange, s.x, by simp only [hostStep, hostGet, h], by simp, .inl rfl⟩
  | hset a v =>
    refine .inr ?_
    rcases h : storeWriteOne s.cfg s.x a v with m | _
    · exact ⟨.done, m, by simp only [hostStep, hostSet, h], by simp, .inr (.inl ⟨a, v, rfl, h⟩)⟩
    · exact ⟨.outOfRange, s.x, by simp only [hostStep, hostSet, h], by simp, .inl rfl⟩
  | hsetm a vs =>
    refine .inr ?_
    rcases h : storeWriteMany s.cfg s.x a vs with m | _
    · exact ⟨.done, m, by simp only [hostStep, hostSetMany, h], by simp, .inr (.inr ⟨a, vs, rfl, h⟩)⟩
    · exact ⟨.outOfRange, s.x, by simp only [hostStep, hostSetMany, h], by simp, .inl rfl⟩
  | hstop => exact .inl ⟨rfl, rfl⟩

/-- What the host's calls leave alone: everything but the registers, the stop request and the results. -/
theorem hostStep_frame (call : HostCall) (s : State) :
    (hostStep call s).cfg = s.cfg ∧ (hostStep call s).st = s.st ∧ (hostStep call s).buf = s.buf ∧
      (hostStep call s).tx = s.tx ∧ (hostStep call s).run = s.run ∧ (hostStep call s).evlog = s.evlog ∧
      (hostStep call s).turns = s.turns ∧ (hostStep call s).rx = s.rx ∧
      (hostStep call s).txResults = s.txResults ∧ (hostStep call s).turnCount = s.turnCount ∧
      (hostStep call s).rxCount = s.rxCount ∧ (hostStep call s).txCount = s.txCount := by
  rcases hostStep_cases call s with ⟨h, -⟩ | ⟨r, m, h, -, -⟩ <;> rw [h] <;>
    exact ⟨rfl, rfl, rfl, rfl, rfl, rfl, rfl, rfl, rfl, rfl, rfl, rfl⟩

/-! ### A step -/

/-- A step of a legal instance is the step of the agent whose turn it is. -/
theorem step_of_legal {s : State} (h : s.cfg.legal) : step s = takeTurn (nextTurn s) (turnTaken s) := by
  unfold step
  rw [if_pos h]

/-- Everything a step can do when it answers a next state. -/
theorem step_cases {s t : State} (h : step s = .next t) :
    s.cfg.legal ∧
      ((nextTurn s = .worker ∧ WorkerEffect (turnTaken s) t) ∨
       (∃ call, nextTurn s = .host call ∧ t = hostStep call (turnTaken s)) ∨
       (nextTurn s = .reset ∧ t = resetStep (turnTaken s)) ∨
       (nextTurn s = .idle ∧ t = turnTaken s)) := by
  unfold step at h
  split at h
  next hl =>
    refine ⟨hl, ?_⟩
    rcases ht : nextTurn s with _ | call | _ | _
    · rw [ht] at h
      exact .inl ⟨rfl, workerIteration_cases h⟩
    · rw [ht] at h
      exact .inr (.inl ⟨call, rfl, (Host.Outcome.next.inj h).symm⟩)
    · rw [ht] at h
      exact .inr (.inr (.inl ⟨rfl, (Host.Outcome.next.inj h).symm⟩))
    · rw [ht] at h
      exact .inr (.inr (.inr ⟨rfl, (Host.Outcome.next.inj h).symm⟩))
  next => cases h

/-- One step of a worker that reads a byte is the byte step. -/
theorem step_of_byte {s : State} {b : Byte} (hl : s.cfg.legal) (hr : s.run = .running) (hs : s.stopReq = false)
    (ht : nextTurn s = .worker) (hx : nextUnit s = .byte b) : step s = rxByte b (unitTaken (turnTaken s)) := by
  rw [step_of_legal hl, ht]
  simp [takeTurn, workerIteration, workerEnabled, hr, hs, hx]

/-- The turn that the next step takes is the first of the turns to come. -/
theorem turnAt_zero (s : State) : turnAt s 0 = nextTurn s := rfl

/-- Taking a turn leaves the later turns what they are. -/
theorem turnAt_turnTaken (s : State) (k : Nat) : turnAt (turnTaken s) k = turnAt s (k + 1) := by
  simp [turnAt, Nat.add_assoc, Nat.add_comm 1 k]

/-! ### Runs -/

theorem core_run_succ (M : Host.Core) (n : Nat) {s s' : M.State} (h : M.step s = .next s') :
    M.run (n + 1) s = M.run n s' := by
  rw [Host.Core.run, h]

/-- A run of this machine goes on from the state its first step answers. -/
theorem run_succ {n : Nat} {s s' : State} (h : step s = .next s') :
    Sys2Proof.core.run (n + 1) s = Sys2Proof.core.run n s' :=
  core_run_succ Sys2Proof.core n h

theorem run_zero (s : State) : Sys2Proof.core.run 0 s = .next s := rfl

end Sys2Proof.Machine
end

