-- ==== Sys2Proof/Tests/Slice0.lean ====
section
/-! SUPPORT. Tests of single steps, with the expected values of spec/95_test_vectors.md, the smoke tests of the
well-formedness checks, and for every statement with hypotheses a concrete state that meets them. -/

namespace Sys2Proof.Tests

open Sys2Proof Sys2Proof.Machine

-- One theorem at a time: each kernel evaluation waits for all that stands before it.
set_option Elab.async false

/-! ### Helpers -/

/-- Bytes from numerals. -/
def bytes (l : List Nat) : List Byte := l.map (BitVec.ofNat 8)

/-- The next state of an outcome, if it is one. -/
def nextState (o : Host.Outcome State Fault Refusal) : Option State :=
  match o with
  | .next t => some t
  | .fault _ => none
  | .refused _ => none

/-- The state a step from `s` leads to, `s` itself where it stops. -/
def stepped (s : State) : State := (nextState (step s)).getD s

/-- The state executing `i` in `s` leads to. -/
def after (i : Instr) (s : State) : State := (nextState (exec i s)).getD s

theorem eq_next_of_isSome {o : Host.Outcome State Fault Refusal} {s : State} (h : (nextState o).isSome = true) :
    o = .next ((nextState o).getD s) := by
  cases o <;> simp_all [nextState]

theorem step_stepped {s : State} (h : (nextState (step s)).isSome = true) : step s = .next (stepped s) :=
  eq_next_of_isSome h

theorem exec_after (i : Instr) (s : State) : exec i s = .next (after i s) := by
  obtain ⟨t, h, -⟩ := exec_responded i s
  simp [after, h, nextState]

/-- The instance of spec/95_test_vectors.md. -/
abbrev std : Config := Config.standard

/-- The reset state with its next transport write listed to succeed. -/
def base : State := { State.reset with txResults := [.ok] }

/-- That state with some cells holding values. -/
def withCells (m : Memory) : State := { base with x := m }

/-- A worker that is about to read byte `b`, its assembler at `st` with `buf` received. -/
def atByte (st : AsmState) (buf : List Nat) (b : Nat) : State :=
  { base with st := st, buf := bytes buf, rx := [.byte (BitVec.ofNat 8 b)], turns := [.worker] }

/-- A host agent's turn. -/
def hostTurn (c : HostCall) : State := { State.reset with turns := [.host c] }

/-- The same state with other results of the transport's writes to come. -/
def withTx (s : State) (rs : List TxResult) : State := { s with txResults := rs }

/-! ### Checksum (spec/95_test_vectors.md V-CRC) -/

theorem test_crc_empty : crc16 std [] = 0xFFFF#16 := by decide +kernel
theorem test_crc_one_byte : crc16 std (bytes [0x01]) = 0x807E#16 := by decide +kernel
theorem test_crc_ff : crc16 std (bytes [0xFF]) = 0x00FF#16 := by decide +kernel
theorem test_crc_check_value :
    compute std (bytes [0x31, 0x32, 0x33, 0x34, 0x35, 0x36, 0x37, 0x38, 0x39]) = bytes [0x37, 0x4B] := by decide +kernel
theorem test_crc_read_frame : compute std (bytes [0x01, 0x03, 0x00, 0x00, 0x00, 0x01]) = bytes [0x84, 0x0A] := by
  decide +kernel
theorem test_verify_swapped : verify std (bytes [0x01, 0x03, 0x00, 0x00, 0x00, 0x01, 0x0A, 0x84]) = false := by
  decide +kernel
theorem test_verify_short : verify std [] = false ∧ verify std (bytes [0x01]) = false := by decide +kernel

/-! ### Ill-formed terms are refused: one for each check -/

theorem test_wf_rdh_foreign_unit : (Instr.rdh 5#8 0#16 1#16).wellFormed std = false := by decide
theorem test_wf_wsr_foreign_unit : (Instr.wsr 5#8 0#16 1#16).wellFormed std = false := by decide
theorem test_wf_wmr_foreign_unit : (Instr.wmr 5#8 0#16 0#16 0#8 []).wellFormed std = false := by decide
theorem test_wf_wmr_data_length : (Instr.wmr 1#8 0#16 1#16 2#8 [0#8]).wellFormed std = false := by decide
theorem test_wf_illegal_foreign_unit : (Instr.illegalFunction 5#8 7#8 []).wellFormed std = false := by decide
theorem test_wf_illegal_supported_code : (Instr.illegalFunction 1#8 6#8 []).wellFormed std = false := by decide
theorem test_wf_rRdh_empty : (Instr.rRdh []).wellFormed std = false := by decide
theorem test_wf_rRdh_too_long : (Instr.rRdh (List.replicate 126 0#16)).wellFormed std = false := by decide +kernel
theorem test_wf_rExc_without_flag : (Instr.rExc 7#8 .illegalFunction).wellFormed std = false := by decide
theorem test_wf_rExc_success_code :
    (Instr.rExc 6#8 .illegalFunction).wellFormed { std with excFlag := 0x02#8 } = false := by decide

/-- One instance for each constraint of spec/00_scope.md R8, in its order, and one for each further range of R7. -/
def illegalInstances : List Config :=
  [{ std with unitAddress := 0#8 },
   { std with fcRead := 6#8 }, { std with fcRead := 0x10#8 }, { std with fcWriteSingle := 0x10#8 },
   { std with fcRead := 0x80#8 }, { std with fcWriteSingle := 0x80#8 }, { std with fcWriteMultiple := 0x80#8 },
   { std with excIllegalFunction := 2#8 }, { std with excIllegalFunction := 3#8 }, { std with excIllegalDataAddress := 3#8 },
   { std with maxReadQty := 128 }, { std with maxWriteQty := 128 }, { std with bufCap := 263 },
   { std with regCount := 255 }, { std with regCount := 65537 }, { std with timeout := 0 },
   { std with regInit := [(1, 1#16), (0, 1#16)] }, { std with regInit := [(0, 0#16)] }, { std with regInit := [(256, 1#16)] }]

theorem test_legal_instance : std.legal := by decide +kernel
theorem test_legal_refuses_each : ∀ c ∈ illegalInstances, ¬ c.legal := by decide +kernel
theorem test_wf_memory :
    Memory.wf [(0, 1#16), (255, 2#16)] ∧ ¬ Memory.wf [(1, 1#16), (1, 2#16)] ∧ ¬ Memory.wf [(2, 1#16), (1, 2#16)] ∧
      ¬ Memory.wf [(0, 0#16)] := by decide
theorem test_within_memory : Memory.within 256 [(255, 2#16)] ∧ ¬ Memory.within 256 [(256, 2#16)] := by decide

/-! ### Decoding: words and frames written out from the spec's encodings (spec/30_encoding.md R82 to R91) -/

/-- `ok` of the decoder, for comparison. -/
def decoded (d : Direction) (f : List Nat) : Option Instr := (decode std d (bytes f)).toOption

/-- The decoder's reason to reject. -/
def rejected (d : Direction) (f : List Nat) : Option DecodeError :=
  match decode std d (bytes f) with
  | .ok _ => none
  | .error e => some e

theorem test_decode_rdh : decoded .request [0x01, 0x03, 0x00, 0x84, 0x00, 0x7D, 0xC5, 0xC2]
    = some (.rdh 1#8 132#16 125#16) := by decide +kernel
theorem test_decode_wsr : decoded .request [0x01, 0x06, 0x00, 0x0A, 0xBE, 0xEF, 0x99, 0xE4]
    = some (.wsr 1#8 10#16 0xBEEF#16) := by decide +kernel
theorem test_decode_wmr :
    decoded .request [0x01, 0x10, 0x00, 0xFE, 0x00, 0x02, 0x04, 0xAA, 0xAA, 0x55, 0x55, 0x83, 0xF0]
      = some (.wmr 1#8 254#16 2#16 4#8 (bytes [0xAA, 0xAA, 0x55, 0x55])) := by decide +kernel
/-- Sized by its byte-count, not by its quantity (R84). -/
theorem test_decode_wmr_malformed :
    decoded .request [0x01, 0x10, 0x00, 0x00, 0x00, 0x02, 0x03, 0xAA, 0xBB, 0xCC, 0xC7, 0x03]
      = some (.wmr 1#8 0#16 2#16 3#8 (bytes [0xAA, 0xBB, 0xCC])) := by decide +kernel
theorem test_decode_illegal_function : decoded .request [0x01, 0xAB, 0x01, 0x9E, 0xF0]
    = some (.illegalFunction 1#8 0xAB#8 [1#8]) := by decide +kernel
theorem test_decode_rRdh : decoded .response [0x01, 0x03, 0x04, 0x12, 0x34, 0xBE, 0xEF, 0x8E, 0xA9]
    = some (.rRdh [0x1234#16, 0xBEEF#16]) := by decide +kernel
theorem test_decode_rWsr : decoded .response [0x01, 0x06, 0x00, 0xFF, 0xFF, 0xFF, 0xB8, 0x4A]
    = some (.rWsr 255#16 0xFFFF#16) := by decide +kernel
theorem test_decode_rWmr : decoded .response [0x01, 0x10, 0x00, 0xFE, 0x00, 0x02, 0x20, 0x38]
    = some (.rWmr 254#16 2#16) := by decide +kernel
theorem test_decode_rExc : decoded .response [0x01, 0x86, 0x02, 0xC3, 0xA1]
    = some (.rExc 0x86#8 .illegalDataAddress) := by decide +kernel
theorem test_decode_rejects_short : rejected .request [0x01, 0x03, 0x00] = some .tooShort := by decide +kernel
theorem test_decode_rejects_length : rejected .request [0x01, 0x03, 0x00, 0x40, 0x21] = some .badLength := by
  decide +kernel
theorem test_decode_rejects_checksum :
    rejected .request [0x01, 0x06, 0x00, 0x05, 0x00, 0x64, 0x98, 0x21] = some .checksumMismatch := by decide +kernel
theorem test_decode_rejects_foreign_response :
    rejected .response [0x05, 0x83, 0x02, 0x00, 0x00] = some .addressMismatch := by decide +kernel
theorem test_decode_rejects_response_code :
    rejected .response [0x01, 0x07, 0x02, 0x00, 0x00] = some .unknownResponseCode := by decide +kernel
theorem test_decode_rejects_odd_count :
    rejected .response [0x01, 0x03, 0x01, 0x00, 0x00, 0x00] = some .badByteCount := by decide +kernel
theorem test_decode_rejects_reason : rejected .response [0x01, 0x83, 0x04, 0x00, 0x00] = some .badReason := by
  decide +kernel

theorem test_encode_rdh : encode std (.rdh 5#8 0#16 1#16) = bytes [0x05, 0x03, 0x00, 0x00, 0x00, 0x01, 0x85, 0x8E] := by
  decide +kernel
theorem test_encode_wmr : encode std (.wmr 1#8 0#16 0#16 0#8 [])
    = bytes [0x01, 0x10, 0x00, 0x00, 0x00, 0x00, 0x00, 0x09, 0x50] := by decide +kernel

/-! ### The words of the opcode table: bits 7..0 are byte 1 of the frame (log 12) -/

theorem test_table_rdh : decodeTableWord 8 0x03 = some (.rdh 1#8 0#16 0#16) := by decide +kernel
/-- Bytes 1 to 5, `06 00 05 00 64`, the first in the lowest bits. -/
theorem test_table_wsr : decodeTableWord 40 0x6400050006 = some (.wsr 1#8 5#16 100#16) := by decide +kernel
/-- Bytes 1 to 10, `10 00 00 00 02 04 00 01 00 02`. -/
theorem test_table_wmr : decodeTableWord 80 0x02000100040200000010
    = some (.wmr 1#8 0#16 2#16 4#8 (bytes [0x00, 0x01, 0x00, 0x02])) := by decide +kernel
/-- With the checksum given too, `06 00 05 00 64 98 20`: a wrong one is rejected. -/
theorem test_table_checksum : decodeTableWord 56 0x20986400050006 = some (.wsr 1#8 5#16 100#16) ∧
    decodeTableWord 56 0x21986400050006 = none := by decide +kernel
theorem test_table_illegal_function : decodeTableWord 8 0x07 = some (.illegalFunction 1#8 7#8 []) := by decide +kernel

/-- From reset the very next step runs the placed instruction: `WSR 5, 100` (spec/95_test_vectors.md W8). -/
theorem test_fetch_wsr :
    ((stepped (State.reset.withFetchWord 40 0x6400050006)).x,
     (stepped (State.reset.withFetchWord 40 0x6400050006)).tx,
     (stepped (State.reset.withFetchWord 40 0x6400050006)).evlog)
      = ([(5, 100#16)], bytes [0x01, 0x06, 0x00, 0x05, 0x00, 0x64, 0x98, 0x20],
         [.notify (.writeOneReq 1#8 6#8 5#16 100#16)]) := by decide +kernel
/-- An unsupported code is discarded at byte 1 (spec/41_frame_assembler.md R133). -/
theorem test_fetch_illegal_function :
    ((stepped (State.reset.withFetchWord 8 0x07)).tx, (stepped (State.reset.withFetchWord 8 0x07)).evlog)
      = ([], [.discard .unsupportedCode]) := by decide +kernel

/-! ### One step of each instruction (spec/95_test_vectors.md V-RD, V-WS, V-WM, V-IF, V-CTRL) -/

theorem test_rdh_ok : (after (.rdh 1#8 0#16 1#16) (withCells [(0, 0x1234#16)])).tx
    = bytes [0x01, 0x03, 0x02, 0x12, 0x34, 0xB5, 0x33] := by decide +kernel
/-- Quantity before address (spec/92_eei_decisions.md D13). -/
theorem test_rdh_value_before_address : (after (.rdh 1#8 300#16 0#16) base).tx
    = bytes [0x01, 0x83, 0x03, 0x01, 0x31] := by decide +kernel
theorem test_wsr_ok : (after (.wsr 1#8 255#16 0xFFFF#16) base).x = [(255, 0xFFFF#16)] ∧
    (after (.wsr 1#8 255#16 0xFFFF#16) base).tx
      = bytes [0x01, 0x06, 0x00, 0xFF, 0xFF, 0xFF, 0xB8, 0x4A] := by decide +kernel
/-- A write that fails after 3 bytes keeps the store change and notifies nothing (spec/42_operations.md R168). -/
theorem test_wsr_transmit_failure :
    let t := after (.wsr 1#8 7#16 7#16) (withTx State.reset [.fail 3])
    t.x = [(7, 7#16)] ∧ t.tx = bytes [0x01, 0x06, 0x00] ∧ t.run = .linkFailed ∧ t.evlog = [] := by decide +kernel
theorem test_wmr_ok :
    let t := after (.wmr 1#8 254#16 2#16 4#8 (bytes [0xAA, 0xAA, 0x55, 0x55])) base
    t.x = [(254, 0xAAAA#16), (255, 0x5555#16)] ∧
      t.tx = bytes [0x01, 0x10, 0x00, 0xFE, 0x00, 0x02, 0x20, 0x38] := by decide +kernel
/-- Past the last cell nothing is written, not even the cells in range. -/
theorem test_wmr_address :
    let t := after (.wmr 1#8 254#16 3#16 6#8 (bytes [0x00, 0x01, 0x00, 0x02, 0x00, 0x03])) base
    t.x = [] ∧ t.tx = bytes [0x01, 0x90, 0x02, 0xCD, 0xC1] := by decide +kernel
theorem test_illegal_function : (after (.illegalFunction 1#8 7#8 []) base).tx
    = bytes [0x01, 0x87, 0x01, 0x82, 0x30] := by decide +kernel
theorem test_illegal_function_flag_set : (after (.illegalFunction 1#8 0x83#8 []) base).tx
    = bytes [0x01, 0x83, 0x01, 0x80, 0xF0] := by decide +kernel
theorem test_rRdh : (after (.rRdh [0#16]) base).tx = bytes [0x01, 0x03, 0x02, 0x00, 0x00, 0xB8, 0x44] := by
  decide +kernel
theorem test_rWsr : (after (.rWsr 7#16 7#16) base).tx
    = bytes [0x01, 0x06, 0x00, 0x07, 0x00, 0x07, 0x79, 0xC9] := by decide +kernel
theorem test_rWmr : (after (.rWmr 20#16 2#16) base).tx
    = bytes [0x01, 0x10, 0x00, 0x14, 0x00, 0x02, 0x01, 0xCC] := by decide +kernel
theorem test_rExc : (after (.rExc 0x90#8 .illegalDataValue) base).tx = bytes [0x01, 0x90, 0x03, 0x0C, 0x01] := by
  decide +kernel

/-! ### The assembler, the host port and the worker loop (spec/95_test_vectors.md V-ASM, V-HOST, V-CTRL, V-RESET) -/

theorem test_asm_broadcast_unmatched : (stepped (atByte .awaitAddress [] 0x00)).evlog = [.discard .addressMismatch] ∧
    (stepped (atByte .awaitAddress [] 0x00)).st = .awaitAddress := by decide +kernel
theorem test_asm_doubled_address : (stepped (atByte .awaitOperationCode [0x01] 0x01)).buf = [] ∧
    (stepped (atByte .awaitOperationCode [0x01] 0x01)).st = .awaitAddress := by decide +kernel
theorem test_asm_length_known : (stepped (atByte .accumulating [0x01, 0x10, 0x00, 0x00, 0x00, 0x02] 0x04)).buf.length = 7 ∧
    expectedLen std (stepped (atByte .accumulating [0x01, 0x10, 0x00, 0x00, 0x00, 0x02] 0x04)).buf = some (.known 13) ∧
    expectedLen std (bytes [0x01, 0x10, 0x00, 0x00, 0x00, 0x02]) = some .unknown := by decide +kernel
theorem test_asm_checksum_good : (stepped (atByte .accumulating [0x01, 0x06, 0x00, 0x05, 0x00, 0x64, 0x98] 0x20)).x
      = [(5, 100#16)] ∧
    (stepped (atByte .accumulating [0x01, 0x06, 0x00, 0x05, 0x00, 0x64, 0x98] 0x20)).buf = [] := by decide +kernel
theorem test_asm_checksum_bad : (stepped (atByte .accumulating [0x01, 0x06, 0x00, 0x05, 0x00, 0x64, 0x98] 0x21)).x = [] ∧
    (stepped (atByte .accumulating [0x01, 0x06, 0x00, 0x05, 0x00, 0x64, 0x98] 0x21)).evlog
      = [.discard .checksumMismatch] := by decide +kernel
theorem test_host_get : (stepped (hostTurn (.hget 255#16 1#16))).hostResults = [.cells [0#16]] ∧
    (stepped (hostTurn (.hget 255#16 2#16))).hostResults = [.outOfRange] ∧
    (stepped (hostTurn (.hget 0#16 126#16))).hostResults = [.outOfRange] ∧
    (stepped (hostTurn (.hget 0#16 0#16))).hostResults = [.outOfRange] := by decide +kernel
theorem test_host_set : (stepped (hostTurn (.hset 255#16 7#16))).x = [(255, 7#16)] ∧
    (stepped (hostTurn (.hset 256#16 1#16))).hostResults = [.outOfRange] := by decide +kernel
theorem test_host_set_many : (stepped (hostTurn (.hsetm 255#16 [1#16, 2#16]))).x = [] ∧
    (stepped (hostTurn (.hsetm 256#16 []))).hostResults = [.done] ∧
    (stepped (hostTurn (.hsetm 257#16 []))).hostResults = [.outOfRange] := by decide +kernel
theorem test_stop_before_read :
    let s := { atByte .awaitAddress [] 0x01 with stopReq := true }
    (stepped s).run = .stopped ∧ (stepped s).rx = s.rx := by decide +kernel
theorem test_closed_fails_link :
    let s := { atByte .accumulating [0x01, 0x03, 0x00] 0x00 with rx := [.closed] }
    (stepped s).run = .linkFailed ∧ (stepped s).tx = [] ∧ (stepped s).buf = s.buf := by decide +kernel
theorem test_timeout_keeps_buffer :
    let s := { atByte .accumulating [0x01, 0x03, 0x00] 0x00 with rx := [.timeout] }
    (stepped s).buf = s.buf ∧ (stepped s).st = .accumulating := by decide +kernel
theorem test_reset_step :
    stepped { State.reset with x := [(5, 100#16)], st := .accumulating, buf := bytes [0x01, 0x03, 0x00], tx := [1#8],
                               run := .stopped, stopReq := true, evlog := [.discard .addressMismatch], turns := [.reset] }
      = { State.reset with turnCount := 1 } := by decide +kernel

/-! ### Witnesses: for each statement with hypotheses, a concrete state and operands that meet them all

Where a statement has several clauses, one theorem meets each clause's own condition, at the ends of its range. -/

/-- `01 06 00 05 00 64 98` received; the next byte completes the frame. -/
def lastByte (b : Nat) : State := atByte .accumulating [0x01, 0x06, 0x00, 0x05, 0x00, 0x64, 0x98] b

/-- A worker whose next bytes are the frame of `i`, with just the turns to take them. -/
def receiving (i : Instr) : State :=
  { base with
    rx := (encode std i).map .byte
    turns := List.replicate (encode std i).length .worker }

theorem witness_ZeroResidueIsVerify : std.crcPoly = 0x8005#16 ∧ std.crcInit = 0xFFFF#16 ∧ std.crcXorOut = 0#16 := by decide

/-- Clause 1 at its longest input, clause 3 with different and with equal checksum bytes. -/
theorem witness_VerifyComparesTheTrailingCode : [1#8].length < 2 ∧
    hi8 (crc16 std (bytes [0x01])) ≠ lo8 (crc16 std (bytes [0x01])) ∧
    hi8 (crc16 std []) = lo8 (crc16 std []) := by decide +kernel

/-- A well-formed frame of every row; for the rows of varying length the shortest and the longest. -/
theorem witness_DecodeOfEncodeIsTheInstruction : std.legal ∧
    ∀ i ∈ [Instr.rdh 1#8 0#16 1#16, .wsr 1#8 255#16 0xFFFF#16, .wmr 1#8 0#16 0#16 0#8 [],
        .wmr 1#8 0#16 127#16 255#8 (List.replicate 255 0#8), .illegalFunction 1#8 0xFF#8 [], .rRdh [0#16],
        .rRdh (List.replicate 125 0#16), .rWsr 5#16 100#16, .rWmr 0#16 2#16, .rExc 0x80#8 .illegalFunction],
      i.wellFormed std = true := by decide +kernel

/-- A frame of this unit, and one of another unit. -/
theorem witness_EncodeOfDecodeIsTheFrame :
    decode std .request (bytes [0x01, 0x03, 0x00, 0x00, 0x00, 0x01, 0x84, 0x0A]) = .ok (.rdh 1#8 0#16 1#16) ∧
    (bytes [0x01, 0x03, 0x00, 0x00, 0x00, 0x01, 0x84, 0x0A]).head? = some std.unitAddress ∧
    decode std .request (bytes [0x05, 0x03, 0x00, 0x00, 0x00, 0x01, 0x85, 0x8E]) = .ok (.rdh 5#8 0#16 1#16) := by
  decide +kernel

/-- A response's direction, for the last clause. -/
theorem witness_ResponseFormats : (Instr.rExc 0x83#8 .illegalDataValue).direction = .response := by decide

/-- Each code, and the write-multiple frame one byte before and at the byte-count's arrival. -/
theorem witness_ExpectedLenByCode : std.legal ∧
    2 ≤ (bytes [0x01, 0x03]).length ∧ (bytes [0x01, 0x03]).getD 1 0 = std.fcRead ∧
    (bytes [0x01, 0x06]).getD 1 0 = std.fcWriteSingle ∧ (bytes [0x01, 0x10]).getD 1 0 = std.fcWriteMultiple ∧
    ¬ 7 ≤ (bytes [0x01, 0x10, 0x00, 0x00, 0x00, 0x02]).length ∧
    7 ≤ (bytes [0x01, 0x10, 0x00, 0x00, 0x00, 0x02, 0xFF]).length := by decide +kernel

theorem witness_AddressByteIsTested : State.reset.cfg.legal ∧ State.reset.st = .awaitAddress ∧ State.reset.buf = [] ∧
    0x01#8 = State.reset.cfg.unitAddress ∧ 0x02#8 ≠ State.reset.cfg.unitAddress := by decide +kernel

theorem witness_OperationCodeIsTested :
    let s := atByte .awaitOperationCode [0x01] 0x03
    s.cfg.legal ∧ s.st = .awaitOperationCode ∧ s.buf = [s.cfg.unitAddress] ∧ s.cfg.supported 0x10#8 ∧
      ¬ s.cfg.supported 0x01#8 := by decide +kernel

/-- The first clause: a frame one byte short of its last. -/
theorem witness_AccumulatingByte_short :
    let s := atByte .accumulating [0x01, 0x06, 0x00, 0x05, 0x00, 0x64] 0x98
    Invariant s ∧ s.st = .accumulating ∧
      expectedLen s.cfg (s.buf ++ [0x98#8]) ≠ some (.known (s.buf.length + 1)) := by decide +kernel

/-- The second and the third clause: its last byte wrong, and right. -/
theorem witness_AccumulatingByte_complete :
    (Invariant (lastByte 0x20) ∧ (lastByte 0x20).st = .accumulating) ∧
    (∀ b ∈ [0x20, 0x21], expectedLen std ((lastByte 0x20).buf ++ [BitVec.ofNat 8 b])
      = some (.known ((lastByte 0x20).buf.length + 1))) ∧
    verify std ((lastByte 0x20).buf ++ [0x21#8]) = false ∧ verify std ((lastByte 0x20).buf ++ [0x20#8]) = true := by
  decide +kernel

theorem witness_StepRunsTheDecodedInstruction :
    let s := lastByte 0x20
    s.cfg.legal ∧ s.run = .running ∧ s.stopReq = false ∧ nextTurn s = .worker ∧ nextUnit s = .byte 0x20#8 ∧
      s.st = .accumulating ∧ s.buf.length < s.cfg.bufCap ∧
      expectedLen s.cfg (s.buf ++ [0x20#8]) = some (.known (s.buf.length + 1)) ∧
      decode s.cfg .request (s.buf ++ [0x20#8]) = .ok (.wsr 1#8 5#16 100#16) := by decide +kernel

/-- A frame of fixed length, and the shortest of the variable one. -/
theorem witness_FrameByteByByteIsTheInstruction :
    ∀ i ∈ [Instr.rdh 1#8 0#16 1#16, .wmr 1#8 0#16 0#16 0#8 []],
      Invariant (receiving i) ∧ (receiving i).st = .awaitAddress ∧ (receiving i).run = .running ∧
        (receiving i).stopReq = false ∧ i.wellFormed (receiving i).cfg = true ∧ i.direction = .request ∧
        (receiving i).rx = (encode (receiving i).cfg i).map .byte ++ [] ∧
        (receiving i).turns = List.replicate (encode (receiving i).cfg i).length .worker ++ [] := by decide +kernel

theorem witness_FrameByteByByte_not_illegalFunction :
    ∀ u code payload, Instr.rdh 1#8 0#16 1#16 ≠ .illegalFunction u code payload := by
  intro u code payload h; cases h

theorem witness_DoubledAddressByteIsLost :
    let s : State := { State.reset with rx := [.byte 1#8, .byte 1#8], turns := [.worker, .worker] }
    s.cfg.legal ∧ s.run = .running ∧ s.stopReq = false ∧ s.st = .awaitAddress ∧ s.buf = [] ∧
      ¬ s.cfg.supported s.cfg.unitAddress ∧
      s.rx = .byte s.cfg.unitAddress :: .byte s.cfg.unitAddress :: [] ∧ s.turns = .worker :: .worker :: [] := by
  decide +kernel

/-- For `ReadHoldingRegisters`, `WriteSingleRegister`, `IllegalFunctionIsAnsweredByTheDispatcherAlone` and
`ResponsesAreSentWhole`: a listed success. -/
theorem witness_writeSucceeds : writeSucceeds base = true ∧ writeSucceeds (withTx State.reset [.ok, .fail 0]) = true := by
  decide

theorem witness_WriteMultipleRegisters : writeSucceeds base = true ∧
    (bytes [0x00, 0x01, 0x00, 0x02]).length = (4#8).toNat ∧ ([] : List Byte).length = (0#8).toNat := by decide

/-- The second clause: a complete frame has a known length. The third: an unsupported code read, and a request answered
with another exception. -/
theorem witness_IllegalFunctionIsAnsweredByTheDispatcherAlone :
    expectedLen (lastByte 0x20).cfg ((lastByte 0x20).buf ++ [0x20#8]) = some (.known 8) ∧
    ∀ s ∈ [atByte .awaitOperationCode [0x01] 0x07,
        atByte .accumulating [0x01, 0x03, 0x00, 0x00, 0x00, 0x7E, 0xC5] 0xEA],
      step s = .next (stepped s) ∧ nextTurn s ≠ .reset := by
  refine ⟨by decide +kernel, fun s hs => ?_⟩
  simp only [List.mem_cons, List.not_mem_nil, or_false] at hs
  rcases hs with rfl | rfl <;> exact ⟨step_stepped (by decide +kernel), by decide +kernel⟩

/-- The success clause, and the failure clause at no byte and at all bytes but one. -/
theorem witness_SendEmitsAllOrAPrefix :
    nextResult base = .ok ∧ nextResult (withTx base [.fail 0]) = .fail 0 ∧ 0 < (bytes [1, 2, 3]).length ∧
    nextResult (withTx base [.fail 2]) = .fail 2 ∧ 2 < (bytes [1, 2, 3]).length := by decide

/-- `WSR 7, 7` with a write that fails after 0 and after 7 of the 8 bytes. -/
theorem witness_TransmitFailureKeepsTheStoreChange :
    nextResult (withTx base [.fail 0]) = .fail 0 ∧ nextResult (withTx base [.fail 7]) = .fail 7 ∧
    (after (.wsr 1#8 7#16 7#16) base).tx.length = 8 := by decide +kernel

theorem witness_ReadsAndResponsesChangeNoRegister :
    exec (.rdh 1#8 0#16 1#16) State.reset = .next (after (.rdh 1#8 0#16 1#16) State.reset) ∧
    (∀ u a v, Instr.rdh 1#8 0#16 1#16 ≠ .wsr u a v) ∧
    (∀ u a q bc data, Instr.rdh 1#8 0#16 1#16 ≠ .wmr u a q bc data) :=
  ⟨exec_after _ _, (by intro u a v h; cases h), (by intro u a q bc data h; cases h)⟩

/-- At the last cell that exists and at the first that does not. -/
theorem witness_WriteSingleChangesOneCell :
    (withCells [(0, 1#16)]).x.wf ∧
    exec (.wsr 1#8 255#16 7#16) (withCells [(0, 1#16)]) = .next (after (.wsr 1#8 255#16 7#16) (withCells [(0, 1#16)])) ∧
    exec (.wsr 1#8 256#16 7#16) (withCells [(0, 1#16)]) = .next (after (.wsr 1#8 256#16 7#16) (withCells [(0, 1#16)])) :=
  ⟨by decide, exec_after _ _, exec_after _ _⟩

/-- An accepted request at the end of the store, and one that runs past it. -/
theorem witness_WriteMultipleChangesExactlyItsCells :
    State.reset.x.wf ∧ (bytes [0x00, 0x01, 0x00, 0x02]).length = (4#8).toNat ∧
    exec (.wmr 1#8 254#16 2#16 4#8 (bytes [0x00, 0x01, 0x00, 0x02])) State.reset
      = .next (after (.wmr 1#8 254#16 2#16 4#8 (bytes [0x00, 0x01, 0x00, 0x02])) State.reset) ∧
    exec (.wmr 1#8 255#16 2#16 4#8 (bytes [0x00, 0x01, 0x00, 0x02])) State.reset
      = .next (after (.wmr 1#8 255#16 2#16 4#8 (bytes [0x00, 0x01, 0x00, 0x02])) State.reset) :=
  ⟨by decide, by decide, exec_after _ _, exec_after _ _⟩

/-- A read of 126 cells; the write of the answer succeeds. -/
theorem witness_ProtocolExceptionsChangeNoRegister :
    exec (.rdh 1#8 0#16 126#16) base = .next (after (.rdh 1#8 0#16 126#16) base) ∧
    LogEntry.protoExc 0x03#8 .illegalDataValue ∈
      (after (.rdh 1#8 0#16 126#16) base).evlog.drop base.evlog.length ∧
    writeSucceeds base = true :=
  ⟨exec_after _ _, by decide +kernel, by decide⟩

theorem witness_EveryRequestGetsOneWellFormedResponse :
    (base.cfg.legal ∧ base.cfg.excFlag = 0x80#8 ∧ writeSucceeds base = true) ∧
    (∀ i ∈ [Instr.rdh 1#8 0#16 125#16, .wsr 1#8 5#16 100#16, .wmr 1#8 0#16 0#16 0#8 [], .illegalFunction 1#8 7#8 []],
      i.direction = .request ∧ i.wellFormed base.cfg = true) ∧
    exec (.rdh 1#8 0#16 125#16) base = .next (after (.rdh 1#8 0#16 125#16) base) :=
  ⟨by decide +kernel, by decide +kernel, exec_after _ _⟩

/-- 12.5 = 0x41480000 in the last two cells, low word first (spec/95_test_vectors.md program 3). -/
theorem witness_TwoCellValueTravelsLowWordFirst :
    let s := withCells [(255, 0x4148#16)]
    writeSucceeds s = true ∧ 2 ≤ s.cfg.maxReadQty ∧ (254#16).toNat + 2 ≤ s.cfg.regCount ∧
      s.x.read (254#16).toNat = (0x41480000#32).extractLsb' 0 16 ∧
      s.x.read ((254#16).toNat + 1) = (0x41480000#32).extractLsb' 16 16 := by decide +kernel

/-- Each clause at its boundary: the first cell that does not exist, and the last that does. -/
theorem witness_StoreWriteOneChangesOneCell : Memory.wf [(3, 1#16)] ∧ std.regCount < (256#16).toNat + 1 ∧
    (255#16).toNat + 1 ≤ std.regCount := by decide

theorem witness_StoreWriteManyChangesExactlyItsCells : Memory.wf [(3, 1#16)] ∧
    std.regCount < (255#16).toNat + [1#16, 2#16].length ∧ (254#16).toNat + [1#16, 2#16].length ≤ std.regCount := by decide

theorem witness_EqualReadsAreEqualStores :
    Memory.wf [(3, 1#16)] ∧ Memory.wf (Memory.write [] 3 1#16) ∧
      ∀ j, Memory.read [(3, 1#16)] j = Memory.read (Memory.write [] 3 1#16) j :=
  ⟨by decide, by decide, fun _ => rfl⟩

/-- A requested stop with nothing and with something left to read, and each kind of transport result. -/
theorem witness_WorkerIterationByWhatIsRead :
    (∀ us ∈ [[], [RxUnit.byte 1#8]],
      let s : State := { State.reset with stopReq := true, turns := [.worker], rx := us }
      s.cfg.legal ∧ s.run = .running ∧ nextTurn s = .worker ∧ s.stopReq = true) ∧
    (∀ u ∈ [RxUnit.byte 1#8, .timeout, .closed],
      let s : State := { State.reset with turns := [.worker], rx := [u] }
      s.cfg.legal ∧ s.run = .running ∧ nextTurn s = .worker ∧ s.stopReq = false ∧ nextUnit s = u) := by decide +kernel

/-- A stopped worker and one whose link has failed, in the middle of a frame, with a byte waiting. -/
theorem witness_WorkerTurnOutsideRunningChangesNothing :
    ∀ r ∈ [RunStatus.stopped, .linkFailed],
      let s := { lastByte 0x20 with run := r }
      s.cfg.legal ∧ s.run ≠ .running ∧ nextTurn s = .worker := by decide +kernel

/-- Nothing listed, and a turn listed. -/
theorem witness_NothingListedIsAFreeChoice :
    (State.reset.cfg.legal ∧ State.reset.turns = [] ∧ State.reset.run = .running ∧ State.reset.stopReq = false ∧
      State.reset.rx = [] ∧ State.reset.txResults = []) ∧
    (hostTurn .hstop).turns = .host .hstop :: [] := by decide +kernel

/-- No turn at all, and two turns of nobody before a host's. -/
theorem witness_TurnsOfNobodyChangeNothing :
    let s : State := { State.reset with turns := [.idle, .idle, .host .hstop] }
    s.cfg.legal ∧ (∀ j < 0, turnAt s j = .idle) ∧ (∀ j < 2, turnAt s j = .idle) := by decide +kernel

/-- The worker's turn at once, and after nobody's and a host's. -/
theorem witness_StopIsActedOnWhenTheWorkerSteps :
    ∀ ts ∈ [[Turn.worker], [.idle, .host (.hset 0#16 1#16), .worker]],
      let s : State := { State.reset with stopReq := true, turns := ts }
      s.cfg.legal ∧ s.run = .running ∧ s.stopReq = true ∧ WorkerStepsBeforeReset s := by
  intro ts hts
  simp only [List.mem_cons, List.not_mem_nil, or_false] at hts
  rcases hts with rfl | rfl
  · exact ⟨by decide +kernel, rfl, rfl, 0, by decide, by decide⟩
  · exact ⟨by decide +kernel, rfl, rfl, 2, by decide, by decide⟩

theorem witness_HostReadReturnsTheCells :
    ∀ call ∈ [HostCall.hget 0#16 0#16, .hget 131#16 125#16, .hget 132#16 125#16, .hget 0#16 126#16],
      (hostTurn call).cfg.legal ∧ nextTurn (hostTurn call) = .host call := by decide +kernel

theorem witness_HostWriteChangesOneCell :
    (∀ call ∈ [HostCall.hset 255#16 7#16, .hset 256#16 7#16],
      (hostTurn call).cfg.legal ∧ (hostTurn call).x.wf ∧ nextTurn (hostTurn call) = .host call) ∧
    std.regCount ≤ (256#16).toNat ∧ (255#16).toNat < std.regCount := by decide +kernel

/-- The empty write at N and past N (spec/95_test_vectors.md V-HOST). -/
theorem witness_HostMultipleWriteIsOneStep :
    (∀ call ∈ [HostCall.hsetm 256#16 [], .hsetm 257#16 []],
      (hostTurn call).cfg.legal ∧ (hostTurn call).x.wf ∧ nextTurn (hostTurn call) = .host call) ∧
    std.regCount < (257#16).toNat + ([] : List Word).length ∧
    (256#16).toNat + ([] : List Word).length ≤ std.regCount := by decide +kernel

theorem witness_HostStopSetsTheFlag : (hostTurn .hstop).cfg.legal ∧ nextTurn (hostTurn .hstop) = .host .hstop := by
  decide +kernel

/-- With a worker that has stopped. -/
theorem witness_HostStepsLeaveTheWorkerAlone :
    let s := { hostTurn (.hset 0#16 1#16) with run := .stopped }
    s.cfg.legal ∧ nextTurn s = .host (.hset 0#16 1#16) := by decide +kernel

theorem witness_ResetStepSetsEveryComponent :
    let s : State := { State.reset with stopReq := true, turns := [.reset] }
    s.cfg.legal ∧ nextTurn s = .reset := by decide +kernel

/-- An instance for each of the constraints the statement lists, in its order. -/
theorem witness_IllegalInstanceIsRefused :
    (∀ c ∈ illegalInstances.take 13,
      c.unitAddress = 0#8 ∨ c.fcRead = c.fcWriteSingle ∨ c.fcRead = c.fcWriteMultiple ∨
      c.fcWriteSingle = c.fcWriteMultiple ∨
      0x80 ≤ c.fcRead.toNat ∨ 0x80 ≤ c.fcWriteSingle.toNat ∨ 0x80 ≤ c.fcWriteMultiple.toNat ∨
      c.excIllegalFunction = c.excIllegalDataAddress ∨ c.excIllegalFunction = c.excIllegalDataValue ∨
      c.excIllegalDataAddress = c.excIllegalDataValue ∨
      127 < c.maxReadQty ∨ 127 < c.maxWriteQty ∨ c.bufCap < 9 + 255) := by decide +kernel

/-- For `EveryStepKeepsTheInvariant`, `NoStepFromAnInvariantStateStops` and `BufferBound`: a state that is no reset state. -/
theorem witness_EveryStepKeepsTheInvariant :
    Invariant (lastByte 0x20) ∧ step (lastByte 0x20) = .next (stepped (lastByte 0x20)) :=
  ⟨by decide +kernel, step_stepped (by decide +kernel)⟩

/-- `BufferBound` at its bound: a write-multiple frame of 264 bytes, all but its last byte received. -/
theorem witness_BufferBound :
    let s : State := { State.reset with
      st := .accumulating
      buf := bytes [0x01, 0x10, 0x00, 0x00, 0x00, 0x7F, 0xFF] ++ List.replicate 256 0#8 }
    Invariant s ∧ s.buf.length = 263 := by decide +kernel

/-- A stop, a closed channel, a failed write, and a reset. -/
theorem witness_RunStatusChangesOnlyByStopErrorOrReset :
    ∀ s ∈ [{ State.reset with stopReq := true, turns := [.worker] }, { State.reset with rx := [.closed], turns := [.worker] },
        withTx (lastByte 0x20) [.fail 3],
        { State.reset with run := .linkFailed, turns := [.reset] }],
      step s = .next (stepped s) ∧ (stepped s).run ≠ s.run := by
  intro s hs
  simp only [List.mem_cons, List.not_mem_nil, or_false] at hs
  rcases hs with rfl | rfl | rfl | rfl <;> exact ⟨step_stepped (by decide +kernel), by decide +kernel⟩

theorem witness_StopRequestChangesOnlyByHostOrReset :
    ∀ s ∈ [hostTurn .hstop, { State.reset with stopReq := true, turns := [.reset] }],
      step s = .next (stepped s) ∧ (stepped s).stopReq ≠ s.stopReq := by
  intro s hs
  simp only [List.mem_cons, List.not_mem_nil, or_false] at hs
  rcases hs with rfl | rfl <;> exact ⟨step_stepped (by decide +kernel), by decide +kernel⟩

/-- Each of the ways a register changes. -/
theorem witness_OnlyWritesAndResetChangeRegisters :
    ∀ s ∈ [hostTurn (.hset 0#16 1#16), hostTurn (.hsetm 0#16 [1#16]), { withCells [(0, 1#16)] with turns := [.reset] },
        lastByte 0x20],
      step s = .next (stepped s) ∧ (stepped s).x ≠ s.x := by
  intro s hs
  simp only [List.mem_cons, List.not_mem_nil, or_false] at hs
  rcases hs with rfl | rfl | rfl | rfl <;> exact ⟨step_stepped (by decide +kernel), by decide +kernel⟩

/-- With a frame that is answered. -/
theorem witness_NothingIsSentWithoutAVerifiedFrame :
    Invariant (lastByte 0x20) ∧ step (lastByte 0x20) = .next (stepped (lastByte 0x20)) ∧ nextTurn (lastByte 0x20) ≠ .reset ∧
      (stepped (lastByte 0x20)).tx ≠ [] :=
  ⟨by decide +kernel, step_stepped (by decide +kernel), by decide +kernel, by decide +kernel⟩

/-- Each kind of framing error. -/
theorem witness_FramingErrorsAreSilent :
    ∀ p ∈ [(atByte .awaitAddress [] 0x05, DiscardKind.addressMismatch),
        (atByte .awaitOperationCode [0x01] 0x07, .unsupportedCode), (lastByte 0x21, .checksumMismatch)],
      step p.1 = .next (stepped p.1) ∧ nextTurn p.1 ≠ .reset ∧
        LogEntry.discard p.2 ∈ (stepped p.1).evlog.drop p.1.evlog.length := by
  intro p hp
  simp only [List.mem_cons, List.not_mem_nil, or_false] at hp
  rcases hp with rfl | rfl | rfl <;> exact ⟨step_stepped (by decide +kernel), by decide +kernel, by decide +kernel⟩

/-- For `ConfigurationIsFixed`, `RegistersNeverSteerTheAssembler` and `OutputsAreReadByNoRule`: a step that answers a
request, with registers that matter to the answer, and the reset. -/
theorem witness_whole_machine :
    ∀ s ∈ [{ atByte .accumulating [0x01, 0x03, 0x00, 0x00, 0x00, 0x01, 0x84] 0x0A with x := [(0, 0x1234#16)] },
        { State.reset with turns := [.reset] }],
      step s = .next (stepped s) := by
  intro s hs
  simp only [List.mem_cons, List.not_mem_nil, or_false] at hs
  rcases hs with rfl | rfl <;> exact step_stepped (by decide +kernel)

end Sys2Proof.Tests
end

