-- ==== Sys2Proof/Proofs/Scope.lean ====
section
/-! PROOFS. The instances the model takes (spec/00_scope.md R8). -/

namespace Sys2Proof.Proofs

open Sys2Proof Sys2Proof.Machine

/-- A step of an instance that is not legal is refused, whichever agent's turn it is. -/
theorem step_of_not_legal {s : State} (h : ¬ s.cfg.legal) : step s = .refused .illegalInstance :=
  if_neg h

/-- Settles O48: each constraint the statement negates is a clause of `Config.legal`, so the instance is not legal. -/
theorem illegalInstanceIsRefused : Obligations.IllegalInstanceIsRefused := by
  intro s broken
  refine step_of_not_legal ?_
  rintro ⟨unit, -, -, ⟨readSingle, readMulti, singleMulti⟩, ⟨readLow, singleLow, multiLow⟩,
    ⟨functionAddress, functionValue, addressValue⟩, readQty, writeQty, cap, -⟩
  rcases broken with h | h | h | h | h | h | h | h | h | h | h | h | h
  -- the unit address: not 0
  · exact unit h
  -- the operation codes: pairwise different, each below 0x80
  · exact readSingle h
  · exact readMulti h
  · exact singleMulti h
  · exact readLow.not_ge h
  · exact singleLow.not_ge h
  · exact multiLow.not_ge h
  -- the reason bytes: pairwise different
  · exact functionAddress h
  · exact functionValue h
  · exact addressValue h
  -- the quantity limits and the buffer capacity
  · exact readQty.not_gt h
  · exact writeQty.not_gt h
  · exact cap.not_gt h

end Sys2Proof.Proofs
end

section
/-! PROOFS. What every step keeps and what it can change: the invariant, the instance, the run status, the stop request,
the registers and the outputs (spec/10_state.md). -/

namespace Sys2Proof.Proofs

open Sys2Proof Sys2Proof.Machine

/-! ### The decoder and the expected length -/

/-- Nothing with a wrong checksum decodes. -/
theorem verify_of_decode {c : Config} {d : Direction} {f : List Byte} {i : Instr} (h : decode c d f = .ok i) :
    verify c f = true := by
  unfold decode at h
  split at h
  next => cases h
  next =>
    split at h
    next => cases h
    next =>
      split at h
      next hv => exact hv
      next => cases h

/-- A known length is at least that of the shortest request, and one more byte does not change it. -/
theorem expectedLen_of_known {c : Config} {buf : List Byte} {n : Nat} (h : expectedLen c buf = some (.known n)) :
    8 ≤ n ∧ ∀ b, expectedLen c (buf ++ [b]) = some (.known n) := by
  unfold expectedLen at h
  split at h
  next u fc rest =>
    split at h
    next hfixed =>
      cases h
      exact ⟨le_rfl, fun b => by simp [expectedLen, hfixed]⟩
    next hfixed =>
      split at h
      next hmulti =>
        split at h
        next =>
          cases h
          exact ⟨by omega, fun b => by simp only [expectedLen, List.cons_append, if_neg hfixed, if_pos hmulti]⟩
        next => cases h
      next => cases h
  next => cases h

/-- While the length is unknown the byte-count at offset 6 has not arrived. -/
theorem length_of_expectedLen_unknown {c : Config} {buf : List Byte} (h : expectedLen c buf = some .unknown) :
    buf.length < 7 := by
  match buf with
  | _ :: _ :: _ :: _ :: _ :: _ :: _ :: _ =>
    simp only [expectedLen] at h
    split at h
    · cases h
    · split at h <;> cases h
  | [] | [_] | [_, _] | [_, _, _] | [_, _, _, _] | [_, _, _, _, _] | [_, _, _, _, _, _] => simp

theorem incomplete_iff {c : Config} {buf : List Byte} :
    incomplete c buf = true ↔
      expectedLen c buf = some .unknown ∨ ∃ n, expectedLen c buf = some (.known n) ∧ buf.length < n := by
  unfold incomplete
  split
  next n h => simp [h]
  next h => simp [h, length_of_expectedLen_unknown h]
  next h => simp [h]

/-- The address and a supported code are never a whole frame. -/
theorem incomplete_of_supported {c : Config} {b : Byte} (hb : c.supported b) (u : Byte) :
    incomplete c [u, b] = true := by
  rw [incomplete_iff]
  by_cases hfixed : b = c.fcRead ∨ b = c.fcWriteSingle
  · exact .inr ⟨8, by simp [expectedLen, hfixed]⟩
  · have hmulti : b = c.fcWriteMultiple := by tauto
    exact .inl (by simp [expectedLen, hfixed, ← hmulti])

/-- A byte that does not complete an incomplete frame leaves it incomplete: the length cannot be passed, since a known
one stays and one that becomes known is more than the seven bytes it is read from. -/
theorem incomplete_append {c : Config} {buf : List Byte} {b : Byte} (h : incomplete c buf = true)
    (hnext : expectedLen c (buf ++ [b]) = some .unknown ∨
      ∃ n, expectedLen c (buf ++ [b]) = some (.known n) ∧ buf.length + 1 ≠ n) :
    incomplete c (buf ++ [b]) = true := by
  rw [incomplete_iff]
  refine hnext.imp_right ?_
  rintro ⟨n, hn, hne⟩
  refine ⟨n, hn, ?_⟩
  rw [List.length_append, List.length_singleton]
  rcases incomplete_iff.mp h with hu | ⟨m, hm, hlt⟩
  · have hshort := length_of_expectedLen_unknown hu
    have hlong := (expectedLen_of_known hn).1
    omega
  · have hsame : m = n := by simpa [hn] using ((expectedLen_of_known hm).2 b).symm
    omega

/-! ### The assembler's invariant, per state of the assembler -/

theorem assemblerInv_of_awaitAddress {s : State} (h : s.st = .awaitAddress) :
    assemblerInv s = true ↔ s.buf = [] := by
  simp [assemblerInv, h]

theorem assemblerInv_of_awaitOperationCode {s : State} (h : s.st = .awaitOperationCode) :
    assemblerInv s = true ↔ s.buf = [s.cfg.unitAddress] := by
  simp [assemblerInv, h]

theorem assemblerInv_of_accumulating {s : State} (h : s.st = .accumulating) :
    assemblerInv s = true ↔
      2 ≤ s.buf.length ∧ s.buf.getD 0 0 = s.cfg.unitAddress ∧ s.cfg.supported (s.buf.getD 1 0) ∧
        incomplete s.cfg s.buf = true := by
  simp only [assemblerInv, h, Bool.and_eq_true, decide_eq_true_eq, and_assoc]

/-- A frame being accumulated starts with the unit address. -/
theorem head?_of_accumulating {s : State} (hst : s.st = .accumulating) (h : assemblerInv s = true) :
    s.buf.head? = some s.cfg.unitAddress := by
  obtain ⟨htwo, hunit, -⟩ := (assemblerInv_of_accumulating hst).mp h
  rcases hbuf : s.buf with _ | ⟨u, rest⟩
  · simp [hbuf] at htwo
  · simpa [hbuf] using hunit

/-! ### The registers an instruction leaves -/

@[simp] theorem excEffect_x (fc : Byte) (r : Reason) (s : State) : (excEffect fc r s).x = s.x := rfl

/-- The registers after `WSR`: as before, or one cell that exists written. -/
theorem effect_wsr_x (u : Byte) (a v : Word) (s : State) :
    (effect (.wsr u a v) s).x = s.x ∨
      a.toNat < s.cfg.regCount ∧ (effect (.wsr u a v) s).x = s.x.write a.toNat v := by
  simp only [effect]
  split
  next => exact .inl rfl
  next hin => exact .inr ⟨by omega, rfl⟩

/-- The registers after `WMR`: as before, or a run of cells that exist written. -/
theorem effect_wmr_x (u : Byte) (a q : Word) (bc : Byte) (data : List Byte) (s : State) :
    (effect (.wmr u a q bc data) s).x = s.x ∨
      ∃ vs : List Word, a.toNat + vs.length ≤ s.cfg.regCount ∧
        (effect (.wmr u a q bc data) s).x = s.x.writeMany a.toNat vs := by
  simp only [effect]
  split
  next => exact .inl rfl
  next =>
    split
    next => exact .inl rfl
    next hin => exact .inr ⟨_, by rw [List.length_take]; omega, rfl⟩

/-- `WSR` and `WMR` alone write registers. -/
theorem effect_x_eq_or_write (i : Instr) (s : State) :
    (effect i s).x = s.x ∨ (∃ u a v, i = .wsr u a v) ∨ ∃ u a q bc data, i = .wmr u a q bc data := by
  cases i with
  | wsr u a v => exact .inr (.inl ⟨u, a, v, rfl⟩)
  | wmr u a q bc data => exact .inr (.inr ⟨u, a, q, bc, data, rfl⟩)
  | rdh u a q =>
    refine .inl ?_
    simp only [effect]
    split
    next => rfl
    next => split <;> rfl
  | illegalFunction => exact .inl rfl
  | rRdh => exact .inl rfl
  | rWsr => exact .inl rfl
  | rWmr => exact .inl rfl
  | rExc => exact .inl rfl

/-- No instruction breaks the canonical form of the store or writes a cell that does not exist. -/
theorem effect_x_keeps (i : Instr) {s : State} (hwf : s.x.wf) (hin : s.x.within s.cfg.regCount) :
    (effect i s).x.wf ∧ (effect i s).x.within s.cfg.regCount := by
  rcases effect_x_eq_or_write i s with hx | ⟨u, a, v, rfl⟩ | ⟨u, a, q, bc, data, rfl⟩
  · rw [hx]
    exact ⟨hwf, hin⟩
  · rcases effect_wsr_x u a v s with hx | ⟨ha, hx⟩ <;> rw [hx]
    · exact ⟨hwf, hin⟩
    · exact ⟨Memory.write_wf hwf _ _, Memory.write_within hin ha _⟩
  · rcases effect_wmr_x u a q bc data s with hx | ⟨vs, hvs, hx⟩ <;> rw [hx]
    · exact ⟨hwf, hin⟩
    · exact ⟨Memory.writeMany_wf hwf _ _, Memory.writeMany_within hin hvs⟩

/-! ### A byte and a worker iteration: what they leave alone -/

/-- No byte changes the instance or the stop request. -/
theorem rxEffect_frame {b : Byte} {s t : State} (h : RxEffect b s t) : t.cfg = s.cfg ∧ t.stopReq = s.stopReq := by
  cases h with
  | executed hst hcap hlen i u hi hu =>
    obtain ⟨hcfg, -, -, -, hstop, -⟩ := (responded_of_exec hu).frame
    exact ⟨hcfg, hstop⟩
  | _ => exact ⟨rfl, rfl⟩

/-- No worker iteration changes the instance or the stop request. -/
theorem workerEffect_frame {s t : State} (h : WorkerEffect s t) : t.cfg = s.cfg ∧ t.stopReq = s.stopReq := by
  cases h with
  | byte b t hrun hstop hrx ht => exact rxEffect_frame (s := unitTaken s) ht
  | _ => exact ⟨rfl, rfl⟩

/-- The worker's byte `b` completes a frame that decodes to `i`, and executing it leads to `t`. -/
structure ExecutesFrame (s : State) (b : Byte) (i : Instr) (t : State) : Prop where
  running : s.run = .running
  notStopped : s.stopReq = false
  read : nextUnit s = .byte b
  accumulating : s.st = .accumulating
  complete : expectedLen s.cfg (s.buf ++ [b]) = some (.known (s.buf.length + 1))
  decoded : decode s.cfg .request (s.buf ++ [b]) = .ok i
  executed : ∃ u, exec i { unitTaken s with buf := s.buf ++ [b] } = .next u ∧ t = clearFrame u

/-- A byte that completes no frame with a valid checksum touches neither registers nor transmit stream nor run
status. -/
theorem rxEffect_quiet_or_executes {b : Byte} {s t : State} (h : RxEffect b s t) :
    (t.x = s.x ∧ t.tx = s.tx ∧ t.run = s.run) ∨
      s.st = .accumulating ∧ expectedLen s.cfg (s.buf ++ [b]) = some (.known (s.buf.length + 1)) ∧
        ∃ i u, decode s.cfg .request (s.buf ++ [b]) = .ok i ∧ exec i { s with buf := s.buf ++ [b] } = .next u ∧
          t = clearFrame u := by
  cases h with
  | executed hst hcap hlen i u hi hu => exact .inr ⟨hst, hlen, i, u, hi, hu, rfl⟩
  | _ => exact .inl ⟨rfl, rfl, rfl⟩

/-- What a worker iteration can do besides executing a frame: acting on a stop request or on a closed channel, which
change the run status, and nothing to registers and transmit stream. -/
theorem workerEffect_quiet_or_executes {s t : State} (h : WorkerEffect s t) :
    (t.x = s.x ∧ t.tx = s.tx ∧
      (t.run = s.run ∨ (s.run = .running ∧ s.stopReq = true ∧ t.run = .stopped) ∨
        (s.run = .running ∧ s.stopReq = false ∧ nextUnit s = .closed ∧ t.run = .linkFailed))) ∨
      ∃ b i, ExecutesFrame s b i t := by
  cases h with
  | idle => exact .inl ⟨rfl, rfl, .inl rfl⟩
  | stopped hrun hstop => exact .inl ⟨rfl, rfl, .inr (.inl ⟨hrun, hstop, rfl⟩)⟩
  | timedOut => exact .inl ⟨rfl, rfl, .inl rfl⟩
  | closed hrun hstop hrx => exact .inl ⟨rfl, rfl, .inr (.inr ⟨hrun, hstop, hrx, rfl⟩)⟩
  | byte b t hrun hstop hrx ht =>
    rcases rxEffect_quiet_or_executes ht with ⟨hx, htx, hr⟩ | ⟨hst, hlen, i, u, hi, hu, rfl⟩
    · exact .inl ⟨hx, htx, .inl hr⟩
    · exact .inr ⟨b, i, hrun, hstop, hrx, hst, hlen, hi, u, hu, rfl⟩

/-- Executing a frame leaves the worker running, or the write of the response failed. -/
theorem ExecutesFrame.run_cases {s t : State} {b : Byte} {i : Instr} (h : ExecutesFrame s b i t) :
    t.run = s.run ∨ t.run = .linkFailed ∧ ∃ k, nextResult s = .fail k := by
  obtain ⟨u, hu, rfl⟩ := h.executed
  rcases responded_of_exec hu with ⟨-, rfl⟩ | ⟨k, hk, rfl⟩
  · exact .inl rfl
  · exact .inr ⟨rfl, k, hk⟩

/-- Executing a frame changes registers only where it decodes to `WSR` or `WMR`. -/
theorem ExecutesFrame.x_eq_or_write {s t : State} {b : Byte} {i : Instr} (h : ExecutesFrame s b i t) :
    t.x = s.x ∨ (∃ u a v, i = .wsr u a v) ∨ ∃ u a q bc data, i = .wmr u a q bc data := by
  obtain ⟨u, hu, rfl⟩ := h.executed
  obtain ⟨-, hx, -⟩ := (responded_of_exec hu).frame
  rw [clearFrame_x, hx]
  exact effect_x_eq_or_write i _

/-! ### The invariant -/

/-- A byte keeps the invariant. -/
theorem rxEffect_keeps_invariant {b : Byte} {s t : State} (hs : Invariant s) (h : RxEffect b s t) : Invariant t := by
  obtain ⟨hlegal, hwf, hin, hasm⟩ := hs
  cases h with
  | started hst hb => exact ⟨hlegal, hwf, hin, (assemblerInv_of_awaitOperationCode rfl).mpr (by rw [hb])⟩
  | mismatched => exact ⟨hlegal, hwf, hin, (assemblerInv_of_awaitAddress rfl).mpr rfl⟩
  | selected hst hb =>
    have hbuf := (assemblerInv_of_awaitOperationCode hst).mp hasm
    refine ⟨hlegal, hwf, hin, (assemblerInv_of_accumulating rfl).mpr ?_⟩
    simpa [hbuf] using ⟨hb, incomplete_of_supported hb _⟩
  | unsupported => exact ⟨hlegal, hwf, hin, (assemblerInv_of_awaitAddress rfl).mpr rfl⟩
  | accumulated hst hcap hlen =>
    obtain ⟨htwo, hunit, hcode, hinc⟩ := (assemblerInv_of_accumulating hst).mp hasm
    refine ⟨hlegal, hwf, hin, (assemblerInv_of_accumulating (s := { s with buf := s.buf ++ [b] }) hst).mpr
      ⟨?_, ?_, ?_, incomplete_append hinc hlen⟩⟩
    · simp only [List.length_append]
      omega
    · rw [List.getD_append _ _ _ _ (by omega), hunit]
    · rw [List.getD_append _ _ _ _ (by omega)]
      exact hcode
  | executed hst hcap hlen i u hi hu =>
    obtain ⟨hcfg, hx, -⟩ := (responded_of_exec hu).frame
    obtain ⟨hwf', hin'⟩ := effect_x_keeps i (s := { s with buf := s.buf ++ [b] }) hwf hin
    refine ⟨?_, ?_, ?_, (assemblerInv_of_awaitAddress rfl).mpr rfl⟩
    · rw [clearFrame_cfg, hcfg]
      exact hlegal
    · rw [clearFrame_x, hx]
      exact hwf'
    · rw [clearFrame_x, clearFrame_cfg, hx, hcfg]
      exact hin'
  | corrupted => exact ⟨hlegal, hwf, hin, (assemblerInv_of_awaitAddress rfl).mpr rfl⟩

/-- A worker iteration keeps the invariant: what it does besides taking a byte touches nothing the invariant reads. -/
theorem workerEffect_keeps_invariant {s t : State} (hs : Invariant s) (h : WorkerEffect s t) : Invariant t := by
  cases h with
  | byte b t hrun hstop hrx ht => exact rxEffect_keeps_invariant (s := unitTaken s) hs ht
  | _ => exact hs

/-- A host call keeps the invariant: a store operation it makes does. -/
theorem hostStep_keeps_invariant {s : State} (hs : Invariant s) (call : HostCall) : Invariant (hostStep call s) := by
  obtain ⟨hlegal, hwf, hin, hasm⟩ := hs
  rcases hostStep_cases call s with ⟨h, -⟩ | ⟨r, m, h, -, hm⟩ <;> rw [h]
  · exact ⟨hlegal, hwf, hin, hasm⟩
  · obtain ⟨hwf', hin'⟩ : m.wf ∧ m.within s.cfg.regCount := by
      rcases hm with rfl | ⟨a, v, -, hw⟩ | ⟨a, vs, -, hw⟩
      · exact ⟨hwf, hin⟩
      · exact storeWriteOne_keeps hwf hin hw
      · exact storeWriteMany_keeps hwf hin hw
    exact ⟨hlegal, hwf', hin', hasm⟩

/-- The contents at reset are a canonical store that lists only existing cells (R8). -/
theorem regInit_of_legal {c : Config} (h : c.legal) : c.regInit.wf ∧ c.regInit.within c.regCount := by
  obtain ⟨-, -, -, -, -, -, -, -, -, -, hwf, hin⟩ := h
  exact ⟨hwf, hin⟩

/-- The reset step leads into the invariant from every state of a legal instance. -/
theorem resetStep_invariant {s : State} (hs : s.cfg.legal) : Invariant (resetStep s) := by
  obtain ⟨hwf, hin⟩ := regInit_of_legal hs
  exact ⟨hs, hwf, hin, (assemblerInv_of_awaitAddress rfl).mpr rfl⟩

/-- Settles O49: each agent's step keeps the invariant, or, as a reset, establishes it. -/
theorem everyStepKeepsTheInvariant : Obligations.EveryStepKeepsTheInvariant := by
  intro s t hs h
  obtain ⟨hlegal, ⟨-, hw⟩ | ⟨call, -, rfl⟩ | ⟨-, rfl⟩ | ⟨-, rfl⟩⟩ := step_cases h
  · exact workerEffect_keeps_invariant (s := turnTaken s) hs hw
  · exact hostStep_keeps_invariant (s := turnTaken s) hs call
  · exact resetStep_invariant (s := turnTaken s) hlegal
  · exact hs

/-! ### Instance, run status, stop request, registers -/

/-- Settles O57, agent by agent. -/
theorem configurationIsFixed : Obligations.ConfigurationIsFixed := by
  intro s t h
  obtain ⟨-, ⟨-, hw⟩ | ⟨call, -, rfl⟩ | ⟨-, rfl⟩ | ⟨-, rfl⟩⟩ := step_cases h
  · exact (workerEffect_frame hw).1
  · exact (hostStep_frame call (turnTaken s)).1
  · rfl
  · rfl

/-- Settles O52: of the agents only the worker and reset touch the run status, and the worker's ways to change it are
those of `workerEffect_quiet_or_executes` and the failed write of `ExecutesFrame.run_cases`. -/
theorem runStatusChangesOnlyByStopErrorOrReset : Obligations.RunStatusChangesOnlyByStopErrorOrReset := by
  intro s t h hne
  obtain ⟨-, ⟨hturn, hw⟩ | ⟨call, -, rfl⟩ | ⟨hturn, rfl⟩ | ⟨-, rfl⟩⟩ := step_cases h
  · refine .inr ?_
    rcases workerEffect_quiet_or_executes hw with
      ⟨-, -, hsame | ⟨hrun, hstop, ht⟩ | ⟨hrun, hstop, hrx, ht⟩⟩ | ⟨b, i, hx⟩
    · exact absurd hsame hne
    · exact .inl ⟨hturn, hrun, hstop, ht⟩
    · exact .inr ⟨hturn, hrun, hstop, ht, .inl hrx⟩
    · rcases hx.run_cases with hsame | ⟨ht, hfail⟩
      · exact absurd hsame hne
      · exact .inr ⟨hturn, hx.running, hx.notStopped, ht, .inr hfail⟩
  · obtain ⟨-, -, -, -, hsame, -⟩ := hostStep_frame call (turnTaken s)
    exact absurd hsame hne
  · exact .inl ⟨hturn, rfl⟩
  · exact absurd rfl hne

/-- Settles O53: the worker leaves the stop request alone, and of the host's calls only the stop call touches it. -/
theorem stopRequestChangesOnlyByHostOrReset : Obligations.StopRequestChangesOnlyByHostOrReset := by
  intro s t h hne
  obtain ⟨-, ⟨-, hw⟩ | ⟨call, hturn, rfl⟩ | ⟨hturn, rfl⟩ | ⟨-, rfl⟩⟩ := step_cases h
  · exact absurd (workerEffect_frame hw).2 hne
  · rcases hostStep_cases call (turnTaken s) with ⟨heq, rfl⟩ | ⟨r, m, heq, -, -⟩
    · exact .inl ⟨hturn, by rw [heq]⟩
    · rw [heq] at hne
      exact absurd rfl hne
  · exact .inr ⟨hturn, rfl⟩
  · exact absurd rfl hne

/-- Settles O54: the worker changes a register only by executing a frame (`workerEffect_quiet_or_executes`), and then
one that decodes to `WSR` or `WMR` (`ExecutesFrame.x_eq_or_write`); a host only by the calls that write the store. -/
theorem onlyWritesAndResetChangeRegisters : Obligations.OnlyWritesAndResetChangeRegisters := by
  intro s t h hne
  obtain ⟨-, ⟨hturn, hw⟩ | ⟨call, hturn, rfl⟩ | ⟨hturn, rfl⟩ | ⟨-, rfl⟩⟩ := step_cases h
  · rcases workerEffect_quiet_or_executes hw with ⟨hsame, -⟩ | ⟨b, i, hx⟩
    · exact absurd hsame hne
    · have hdec : decode s.cfg .request (s.buf ++ [b]) = .ok i := hx.decoded
      refine .inr (.inr (.inr
        ⟨hturn, hx.running, hx.notStopped, hx.accumulating, b, hx.read, verify_of_decode hdec, ?_⟩))
      rcases hx.x_eq_or_write with hsame | ⟨u, a, v, rfl⟩ | ⟨u, a, q, bc, data, rfl⟩
      · exact absurd hsame hne
      · exact .inl ⟨u, a, v, hdec⟩
      · exact .inr ⟨u, a, q, bc, data, hdec⟩
  · rcases hostStep_cases call (turnTaken s) with ⟨heq, -⟩ | ⟨r, m, heq, -, hm⟩
    · rw [heq] at hne
      exact absurd rfl hne
    · rw [heq] at hne
      rcases hm with hsame | ⟨a, v, rfl, -⟩ | ⟨a, vs, rfl, -⟩
      · exact absurd hsame hne
      · exact .inl ⟨a, v, hturn⟩
      · exact .inr (.inl ⟨a, vs, hturn⟩)
  · exact .inr (.inr (.inl hturn))
  · exact absurd rfl hne

/-! ### The outputs: what grows, and that no rule reads it -/

/-- `s` with other outputs. -/
def withOutputs (log : List LogEntry) (out : List Byte) (res : List HostResult) (s : State) : State :=
  { s with evlog := log, tx := out, hostResults := res }

/-- From `s` to `t` the outputs grow by `es`, `bs` and `rs`, and `R`, a relation of a state to its successor, also leads
from `s` with any other outputs to `t` with those, grown alike. -/
structure GrowsAlike (R : State → State → Prop) (es : List LogEntry) (bs : List Byte) (rs : List HostResult)
    (s t : State) : Prop where
  evlog : t.evlog = s.evlog ++ es
  tx : t.tx = s.tx ++ bs
  hostResults : t.hostResults = s.hostResults ++ rs
  alike : ∀ log out res, R (withOutputs log out res s) (withOutputs (log ++ es) (out ++ bs) (res ++ rs) t)

/-- Where nothing is put out, the outputs have to stay as they are. -/
theorem GrowsAlike.of_unchanged {R : State → State → Prop} {s t : State} (hlog : t.evlog = s.evlog) (htx : t.tx = s.tx)
    (hres : t.hostResults = s.hostResults)
    (h : ∀ log out res, R (withOutputs log out res s) (withOutputs log out res t)) :
    GrowsAlike R [] [] [] s t where
  evlog := by rw [hlog, List.append_nil]
  tx := by rw [htx, List.append_nil]
  hostResults := by rw [hres, List.append_nil]
  alike log out res := by simpa only [List.append_nil] using h log out res

/-- Where one entry is logged and nothing else put out. -/
theorem GrowsAlike.of_logged {R : State → State → Prop} {s t : State} {e : LogEntry} (hlog : t.evlog = s.evlog ++ [e])
    (htx : t.tx = s.tx) (hres : t.hostResults = s.hostResults)
    (h : ∀ log out res, R (withOutputs log out res s) (withOutputs (log ++ [e]) out res t)) :
    GrowsAlike R [e] [] [] s t where
  evlog := hlog
  tx := by rw [htx, List.append_nil]
  hostResults := by rw [hres, List.append_nil]
  alike log out res := by simpa only [List.append_nil] using h log out res

/-- What is sent and logged for a response depends on no output. -/
theorem responded_growsAlike {x' : Memory} {resp : List Byte} {always ifSent : List LogEntry} {s t : State}
    (h : Responded x' resp always ifSent s t) :
    ∃ es bs, GrowsAlike (Responded x' resp always ifSent) es bs [] s t := by
  rcases h with ⟨hok, rfl⟩ | ⟨k, hfail, rfl⟩
  · refine ⟨always ++ ifSent, resp, rfl, rfl, (List.append_nil _).symm, fun log out res => ?_⟩
    rw [List.append_nil]
    exact .inl ⟨hok, rfl⟩
  · refine ⟨always, failedPrefix k resp, rfl, rfl, (List.append_nil _).symm, fun log out res => ?_⟩
    rw [List.append_nil]
    exact .inr ⟨k, hfail, rfl⟩

/-- The state after a response is determined by the one before it. -/
theorem responded_unique {x' : Memory} {resp : List Byte} {always ifSent : List LogEntry} {s t t' : State}
    (h : Responded x' resp always ifSent s t) (h' : Responded x' resp always ifSent s t') : t = t' := by
  rcases h with ⟨hok, rfl⟩ | ⟨k, hfail, rfl⟩ <;> rcases h' with ⟨hok', rfl⟩ | ⟨k', hfail', rfl⟩
  · rfl
  · simp [writeSucceeds, hfail'] at hok
  · simp [writeSucceeds, hfail] at hok'
  · obtain rfl : k = k' := by simpa [hfail] using hfail'
    rfl

/-- `exec` answers exactly the state after the response of the instruction's effect. -/
theorem exec_eq_next_iff {i : Instr} {s t : State} :
    exec i s = .next t ↔
      Responded (effect i s).x (encode s.cfg (effect i s).resp) (effect i s).always (effect i s).ifSent s t := by
  refine ⟨responded_of_exec, fun h => ?_⟩
  obtain ⟨t', hexec, h'⟩ := exec_responded i s
  rw [hexec, responded_unique h h']

/-- An instruction's effect depends on no output. -/
@[simp] theorem effect_withOutputs (i : Instr) (log : List LogEntry) (out : List Byte) (res : List HostResult)
    (s : State) : effect i (withOutputs log out res s) = effect i s := by
  cases i <;> rfl

theorem exec_growsAlike {i : Instr} {s t : State} (h : exec i s = .next t) :
    ∃ es bs, GrowsAlike (fun s t => exec i s = .next t) es bs [] s t := by
  obtain ⟨es, bs, hg⟩ := responded_growsAlike (exec_eq_next_iff.mp h)
  refine ⟨es, bs, hg.evlog, hg.tx, hg.hostResults, fun log out res => exec_eq_next_iff.mpr ?_⟩
  rw [effect_withOutputs]
  exact hg.alike log out res

theorem rxEffect_growsAlike {b : Byte} {s t : State} (h : RxEffect b s t) :
    ∃ es bs, GrowsAlike (RxEffect b) es bs [] s t := by
  cases h with
  | started hst hb => exact ⟨_, _, .of_unchanged rfl rfl rfl fun _ _ _ => .started hst hb⟩
  | mismatched hst hb => exact ⟨_, _, .of_logged rfl rfl rfl fun _ _ _ => .mismatched hst hb⟩
  | selected hst hb hcap => exact ⟨_, _, .of_unchanged rfl rfl rfl fun _ _ _ => .selected hst hb hcap⟩
  | unsupported hst hb => exact ⟨_, _, .of_logged rfl rfl rfl fun _ _ _ => .unsupported hst hb⟩
  | accumulated hst hcap hlen => exact ⟨_, _, .of_unchanged rfl rfl rfl fun _ _ _ => .accumulated hst hcap hlen⟩
  | executed hst hcap hlen i u hi hu =>
    obtain ⟨es, bs, hg⟩ := exec_growsAlike hu
    exact ⟨es, bs, hg.evlog, hg.tx, hg.hostResults, fun log out res =>
      .executed (s := withOutputs log out res s) hst hcap hlen i _ hi (hg.alike log out res)⟩
  | corrupted hst hcap hlen e he => exact ⟨_, _, .of_logged rfl rfl rfl fun _ _ _ => .corrupted hst hcap hlen e he⟩

theorem workerEffect_growsAlike {s t : State} (h : WorkerEffect s t) :
    ∃ es bs, GrowsAlike WorkerEffect es bs [] s t := by
  cases h with
  | idle hrun => exact ⟨_, _, .of_unchanged rfl rfl rfl fun _ _ _ => .idle hrun⟩
  | stopped hrun hstop => exact ⟨_, _, .of_unchanged rfl rfl rfl fun _ _ _ => .stopped hrun hstop⟩
  | timedOut hrun hstop hrx => exact ⟨_, _, .of_unchanged rfl rfl rfl fun _ _ _ => .timedOut hrun hstop hrx⟩
  | closed hrun hstop hrx => exact ⟨_, _, .of_unchanged rfl rfl rfl fun _ _ _ => .closed hrun hstop hrx⟩
  | byte b t hrun hstop hrx ht =>
    obtain ⟨es, bs, hg⟩ := rxEffect_growsAlike ht
    exact ⟨es, bs, hg.evlog, hg.tx, hg.hostResults, fun log out res =>
      .byte b _ hrun hstop hrx (hg.alike log out res)⟩

/-- What a host call does, the stop request aside, is given by the instance and the registers: the result it hands back
and the registers after it. -/
theorem hostStep_of_cfg_x (call : HostCall) (c : Config) (m : Memory) :
    call = .hstop ∨
      ∃ r m', ∀ s : State, s.cfg = c → s.x = m → hostStep call s = returnToHost r { s with x := m' } := by
  cases call with
  | hget a n =>
    refine .inr ?_
    rcases h : storeRead c m a n with vs | _
    · exact ⟨.cells vs, m, by rintro s rfl rfl; simp only [hostStep, hostGet, h]⟩
    · exact ⟨.outOfRange, m, by rintro s rfl rfl; simp only [hostStep, hostGet, h]⟩
  | hset a v =>
    refine .inr ?_
    rcases h : storeWriteOne c m a v with m' | _
    · exact ⟨.done, m', by rintro s rfl rfl; simp only [hostStep, hostSet, h]⟩
    · exact ⟨.outOfRange, m, by rintro s rfl rfl; simp only [hostStep, hostSet, h]⟩
  | hsetm a vs =>
    refine .inr ?_
    rcases h : storeWriteMany c m a vs with m' | _
    · exact ⟨.done, m', by rintro s rfl rfl; simp only [hostStep, hostSetMany, h]⟩
    · exact ⟨.outOfRange, m, by rintro s rfl rfl; simp only [hostStep, hostSetMany, h]⟩
  | hstop => exact .inl rfl

/-- A host call depends on no output; it puts out its result, if it has one. -/
theorem hostStep_growsAlike (call : HostCall) (s : State) :
    ∃ rs, GrowsAlike (fun s t => t = hostStep call s) [] [] rs s (hostStep call s) := by
  rcases hostStep_of_cfg_x call s.cfg s.x with rfl | ⟨r, m, h⟩
  · exact ⟨_, .of_unchanged rfl rfl rfl fun _ _ _ => rfl⟩
  · rw [h s rfl rfl]
    refine ⟨[r], (List.append_nil _).symm, (List.append_nil _).symm, rfl, fun log out res => ?_⟩
    rw [h (withOutputs log out res s) rfl rfl, List.append_nil, List.append_nil]
    rfl

/-- Whose turn it is and the taking of it depend on no output. -/
theorem step_withOutputs {s : State} (h : s.cfg.legal) (log : List LogEntry) (out : List Byte) (res : List HostResult) :
    step (withOutputs log out res s) = takeTurn (nextTurn s) (withOutputs log out res (turnTaken s)) :=
  step_of_legal (s := withOutputs log out res s) h

/-- Every step but a reset only adds to the outputs, and reads none of them. -/
theorem step_growsAlike {s t : State} (h : step s = .next t) (hturn : nextTurn s ≠ .reset) :
    ∃ es bs rs, GrowsAlike (fun s t => step s = .next t) es bs rs s t := by
  obtain ⟨hlegal, ⟨ht, hw⟩ | ⟨call, ht, rfl⟩ | ⟨ht, -⟩ | ⟨ht, rfl⟩⟩ := step_cases h
  · obtain ⟨es, bs, hg⟩ := workerEffect_growsAlike hw
    refine ⟨es, bs, [], hg.evlog, hg.tx, hg.hostResults, fun log out res => ?_⟩
    rw [step_withOutputs hlegal, ht]
    exact workerIteration_of_effect (hg.alike log out res)
  · obtain ⟨rs, hg⟩ := hostStep_growsAlike call (turnTaken s)
    refine ⟨[], [], rs, hg.evlog, hg.tx, hg.hostResults, fun log out res => ?_⟩
    rw [step_withOutputs hlegal, ht]
    exact congrArg _ (hg.alike log out res).symm
  · exact absurd ht hturn
  · refine ⟨_, _, _, .of_unchanged rfl rfl rfl fun log out res => ?_⟩
    rw [step_withOutputs hlegal, ht]
    rfl

/-- Settles O59: a reset's outputs are the same whatever they were; any other step is `step_growsAlike`. -/
theorem outputsAreReadByNoRule : Obligations.OutputsAreReadByNoRule := by
  intro s t log out res h
  by_cases hturn : nextTurn s = .reset
  · have hlegal := (step_cases h).1
    rw [step_of_legal hlegal, hturn] at h
    cases h
    refine ⟨[], [], [], by simp [hturn], by simp [hturn], by simp, ?_⟩
    simp only [if_pos hturn, List.append_nil]
    refine (step_withOutputs hlegal log out res).trans ?_
    rw [hturn]
    rfl
  · obtain ⟨es, bs, rs, hg⟩ := step_growsAlike h hturn
    simp only [if_neg hturn]
    exact ⟨es, bs, rs, hg.evlog, hg.tx, hg.hostResults, hg.alike log out res⟩

/-- Settles O55: what grows is `step_growsAlike`; and where `tx` changes, the worker executed a frame, whose first byte
the assembler's invariant knows. -/
theorem nothingIsSentWithoutAVerifiedFrame : Obligations.NothingIsSentWithoutAVerifiedFrame := by
  intro s t hs h hturn
  obtain ⟨es, bs, rs, hg⟩ := step_growsAlike h hturn
  have hsilent (hsame : t.tx = s.tx) : bs = [] := by simpa [hg.tx] using hsame
  refine ⟨⟨es, hg.evlog⟩, bs, hg.tx, ?_⟩
  obtain ⟨-, ⟨hworker, hw⟩ | ⟨call, -, rfl⟩ | ⟨hreset, -⟩ | ⟨-, rfl⟩⟩ := step_cases h
  · rcases workerEffect_quiet_or_executes hw with ⟨-, hsame, -⟩ | ⟨b, i, hx⟩
    · exact .inl (hsilent hsame)
    · obtain ⟨-, -, -, hasm⟩ := hs
      exact .inr ⟨hworker, hx.running, hx.notStopped, hx.accumulating, b, hx.read, verify_of_decode hx.decoded,
        head?_of_accumulating hx.accumulating hasm, hx.complete⟩
  · obtain ⟨-, -, -, hsame, -⟩ := hostStep_frame call (turnTaken s)
    exact .inl (hsilent hsame)
  · exact absurd hreset hturn
  · exact .inl (hsilent rfl)

/-! ### Outside `Running`, and the reset state -/

/-- Settles O36: outside `Running` a worker's turn is `WorkerEffect.idle`. -/
theorem workerTurnOutsideRunningChangesNothing : Obligations.WorkerTurnOutsideRunningChangesNothing := by
  intro s hlegal hrun hturn
  rw [step_of_legal hlegal, hturn]
  exact workerIteration_of_effect (.idle hrun)

/-- Settles O46: `State.reset` names each of these values. -/
theorem resetStateHoldsTheResetValues : Obligations.ResetStateHoldsTheResetValues :=
  ⟨rfl, rfl, rfl, rfl, rfl, rfl, rfl⟩

/-- The instance of the reset state meets the constraints of R8. -/
theorem standard_legal : Config.standard.legal := by
  decide

/-- Settles O47: the reset state is one that a reset step leads to. -/
theorem resetMeetsTheInvariant : Obligations.ResetMeetsTheInvariant :=
  resetStep_invariant (s := State.reset) standard_legal

end Sys2Proof.Proofs
end

section
/-! PROOFS. The register store: what its three operations answer, that its list form is canonical, how a two-cell value
travels, and that its contents never steer the reception of bytes (spec/20_memory.md). -/

namespace Sys2Proof.Proofs

open Sys2Proof Sys2Proof.Machine

/-! ### Register contents and the reception of bytes -/

/-- `s` with other register contents. -/
def withRegisters (m : Memory) (s : State) : State :=
  { s with x := m }

/-- `t'` is `t` in everything but the register contents, the values among the bytes sent and what the hosts were
handed: in particular in all that decides how later bytes are received (R63). -/
structure ReceivesAlike (t' t : State) : Prop where
  cfg : t'.cfg = t.cfg
  st : t'.st = t.st
  buf : t'.buf = t.buf
  run : t'.run = t.run
  stopReq : t'.stopReq = t.stopReq
  evlog : t'.evlog = t.evlog
  turns : t'.turns = t.turns
  rx : t'.rx = t.rx
  txResults : t'.txResults = t.txResults
  turnCount : t'.turnCount = t.turnCount
  rxCount : t'.rxCount = t.rxCount
  txCount : t'.txCount = t.txCount
  txLength : t'.tx.length = t.tx.length

theorem receivesAlike_withRegisters (m : Memory) (t : State) : ReceivesAlike (withRegisters m t) t :=
  ⟨rfl, rfl, rfl, rfl, rfl, rfl, rfl, rfl, rfl, rfl, rfl, rfl, rfl⟩

/-- Where a relation leads to `t` with the register contents passed through, it leads to a state alike. -/
theorem exists_receivesAlike {R : State → Prop} {t : State} (m : Memory) (h : R (withRegisters m t)) :
    ∃ t', R t' ∧ ReceivesAlike t' t :=
  ⟨withRegisters m t, h, receivesAlike_withRegisters m t⟩

/-- The end of a frame empties the buffer in both. -/
theorem ReceivesAlike.clearFrame {t' t : State} (h : ReceivesAlike t' t) :
    ReceivesAlike (clearFrame t') (clearFrame t) :=
  { h with st := rfl, buf := rfl }

theorem encode_length (c : Config) (i : Instr) : (encode c i).length = Laws.frameLength i := by
  cases i with
  | rdh unit addr qty => exact Laws.EncodedLength.rdh unit addr qty c
  | wsr unit addr value => exact Laws.EncodedLength.wsr unit addr value c
  | wmr unit addr qty bc data => exact Laws.EncodedLength.wmr unit addr qty bc data c
  | illegalFunction unit code payload => exact Laws.EncodedLength.illegalFunction unit code payload c
  | rRdh values => exact Laws.EncodedLength.rRdh values c
  | rWsr addr value => exact Laws.EncodedLength.rWsr addr value c
  | rWmr addr qty => exact Laws.EncodedLength.rWmr addr qty c
  | rExc code reason => exact Laws.EncodedLength.rExc code reason c

/-- Two effects that may differ in the registers and in the values a response of the same length carries. -/
structure EffectsAlike (e' e : Effect) : Prop where
  always : e'.always = e.always
  ifSent : e'.ifSent = e.ifSent
  respLength : Laws.frameLength e'.resp = Laws.frameLength e.resp

/-- Effects decided by the same check are alike when they are in both of its branches. -/
theorem EffectsAlike.ite {p : Prop} [Decidable p] {accept' accept refuse' refuse : Effect}
    (hrefuse : EffectsAlike refuse' refuse) (haccept : EffectsAlike accept' accept) :
    EffectsAlike (if p then refuse' else accept') (if p then refuse else accept) := by
  split
  · exact hrefuse
  · exact haccept

theorem excEffect_withRegisters (fc : Byte) (r : Reason) (m : Memory) (s : State) :
    EffectsAlike (excEffect fc r (withRegisters m s)) (excEffect fc r s) :=
  ⟨rfl, rfl, rfl⟩

/-- What an instruction checks and logs and the length of its response depend on no register: a read response carries
as many values as the request asks for, whatever they are. -/
theorem effect_withRegisters (i : Instr) (m : Memory) (s : State) :
    EffectsAlike (effect i (withRegisters m s)) (effect i s) := by
  cases i with
  | rdh unit a q =>
    have hread : EffectsAlike
        ⟨m, .rRdh (m.readMany a.toNat q.toNat), [], [.notify (.readReq unit s.cfg.fcRead a q)]⟩
        ⟨s.x, .rRdh (s.x.readMany a.toNat q.toNat), [], [.notify (.readReq unit s.cfg.fcRead a q)]⟩ :=
      ⟨rfl, rfl, by simp only [Laws.frameLength, Memory.readMany_length]⟩
    exact .ite (excEffect_withRegisters _ _ m s) (.ite (excEffect_withRegisters _ _ m s) hread)
  | wsr unit a v => exact .ite (excEffect_withRegisters _ _ m s) ⟨rfl, rfl, rfl⟩
  | wmr unit a q bc data =>
    exact .ite (excEffect_withRegisters _ _ m s) (.ite (excEffect_withRegisters _ _ m s) ⟨rfl, rfl, rfl⟩)
  | illegalFunction unit code payload => exact excEffect_withRegisters _ _ m s
  | rRdh => exact ⟨rfl, rfl, rfl⟩
  | rWsr => exact ⟨rfl, rfl, rfl⟩
  | rWmr => exact ⟨rfl, rfl, rfl⟩
  | rExc => exact ⟨rfl, rfl, rfl⟩

/-- A failed write leaves equally much of responses of equal length. -/
theorem failedPrefix_length_congr {k : Nat} {resp resp' : List Byte} (h : resp'.length = resp.length) :
    (failedPrefix k resp').length = (failedPrefix k resp).length := by
  simp only [failedPrefix, List.length_take, h]

/-- The write of a response comes to the same for another response of the same length, from other registers. -/
theorem responded_receivesAlike {x' x'' : Memory} {resp resp' : List Byte} {always ifSent : List LogEntry}
    {s t : State} (m : Memory) (hlen : resp'.length = resp.length) (h : Responded x' resp always ifSent s t) :
    ∃ t', Responded x'' resp' always ifSent (withRegisters m s) t' ∧ ReceivesAlike t' t := by
  rcases h with ⟨hok, rfl⟩ | ⟨k, hfail, rfl⟩
  · refine ⟨_, .inl ⟨hok, rfl⟩, rfl, rfl, rfl, rfl, rfl, rfl, rfl, rfl, rfl, rfl, rfl, rfl, ?_⟩
    simp [withRegisters, hlen]
  · refine ⟨_, .inr ⟨k, hfail, rfl⟩, rfl, rfl, rfl, rfl, rfl, rfl, rfl, rfl, rfl, rfl, rfl, rfl, ?_⟩
    simp [withRegisters, failedPrefix_length_congr hlen]

theorem exec_receivesAlike {i : Instr} {s t : State} (m : Memory) (h : exec i s = .next t) :
    ∃ t', exec i (withRegisters m s) = .next t' ∧ ReceivesAlike t' t := by
  have heff := effect_withRegisters i m s
  have hresp : (encode s.cfg (effect i (withRegisters m s)).resp).length =
      (encode s.cfg (effect i s).resp).length := by
    rw [encode_length, encode_length, heff.respLength]
  obtain ⟨t', ht', halike⟩ := responded_receivesAlike m hresp (exec_eq_next_iff.mp h)
  refine ⟨t', exec_eq_next_iff.mpr ?_, halike⟩
  rw [heff.always, heff.ifSent]
  exact ht'

/-- A byte is tested against the instance and the buffer alone. -/
theorem rxEffect_receivesAlike {b : Byte} {s t : State} (m : Memory) (h : RxEffect b s t) :
    ∃ t', RxEffect b (withRegisters m s) t' ∧ ReceivesAlike t' t := by
  cases h with
  | started hst hb => exact exists_receivesAlike m (.started hst hb)
  | mismatched hst hb => exact exists_receivesAlike m (.mismatched hst hb)
  | selected hst hb hcap => exact exists_receivesAlike m (.selected hst hb hcap)
  | unsupported hst hb => exact exists_receivesAlike m (.unsupported hst hb)
  | accumulated hst hcap hlen => exact exists_receivesAlike m (.accumulated hst hcap hlen)
  | executed hst hcap hlen i u hi hu =>
    obtain ⟨u', hu', halike⟩ := exec_receivesAlike m hu
    exact ⟨_, .executed (s := withRegisters m s) hst hcap hlen i u' hi hu', halike.clearFrame⟩
  | corrupted hst hcap hlen e he => exact exists_receivesAlike m (.corrupted hst hcap hlen e he)

theorem workerEffect_receivesAlike {s t : State} (m : Memory) (h : WorkerEffect s t) :
    ∃ t', WorkerEffect (withRegisters m s) t' ∧ ReceivesAlike t' t := by
  cases h with
  | idle hrun => exact exists_receivesAlike m (.idle hrun)
  | stopped hrun hstop => exact exists_receivesAlike m (.stopped hrun hstop)
  | timedOut hrun hstop hrx => exact exists_receivesAlike m (.timedOut hrun hstop hrx)
  | closed hrun hstop hrx => exact exists_receivesAlike m (.closed hrun hstop hrx)
  | byte b t hrun hstop hrx ht =>
    obtain ⟨t', ht', halike⟩ := rxEffect_receivesAlike m ht
    exact ⟨t', .byte b t' hrun hstop hrx ht', halike⟩

/-- A host call may hand back other values and leave other registers, but does nothing else to the state. -/
theorem hostStep_receivesAlike (call : HostCall) (m : Memory) (s : State) :
    ReceivesAlike (hostStep call (withRegisters m s)) (hostStep call s) := by
  rcases hostStep_of_cfg_x call s.cfg s.x with rfl | ⟨r, x, h⟩
  · exact receivesAlike_withRegisters m (setStopRequest s)
  · rcases hostStep_of_cfg_x call s.cfg m with rfl | ⟨r', x', h'⟩
    · exact receivesAlike_withRegisters m (setStopRequest s)
    · rw [h s rfl rfl, h' (withRegisters m s) rfl rfl]
      exact ⟨rfl, rfl, rfl, rfl, rfl, rfl, rfl, rfl, rfl, rfl, rfl, rfl, rfl⟩

/-- Whose turn it is and the taking of it depend on no register. -/
theorem step_withRegisters {s : State} (h : s.cfg.legal) (m : Memory) :
    step (withRegisters m s) = takeTurn (nextTurn s) (withRegisters m (turnTaken s)) :=
  step_of_legal (s := withRegisters m s) h

/-- Settles O58, agent by agent: the worker by `workerEffect_receivesAlike`, a host by `hostStep_receivesAlike`; a reset
puts the same contents in place of any. -/
theorem registersNeverSteerTheAssembler : Obligations.RegistersNeverSteerTheAssembler := by
  intro s t m h
  obtain ⟨t', hstep, alike⟩ : ∃ t', step (withRegisters m s) = .next t' ∧ ReceivesAlike t' t := by
    obtain ⟨hlegal, ⟨hturn, hw⟩ | ⟨call, hturn, rfl⟩ | ⟨hturn, rfl⟩ | ⟨hturn, rfl⟩⟩ := step_cases h <;>
      rw [step_withRegisters hlegal, hturn]
    · obtain ⟨t', hw', alike⟩ := workerEffect_receivesAlike m hw
      exact ⟨t', workerIteration_of_effect hw', alike⟩
    · exact ⟨_, rfl, hostStep_receivesAlike call m (turnTaken s)⟩
    · exact exists_receivesAlike s.cfg.regInit rfl
    · exact exists_receivesAlike m rfl
  exact ⟨t', hstep, alike.cfg, alike.st, alike.buf, alike.run, alike.stopReq, alike.evlog, alike.turns, alike.rx,
    alike.txResults, alike.turnCount, alike.rxCount, alike.txCount, alike.txLength⟩

/-! ### The three store operations -/

/-- Settles O31: in range, the run of cells read is each cell read (`Memory.readMany_eq_map`). -/
theorem storeReadGivesTheCells : Obligations.StoreReadGivesTheCells := by
  intro c m a n
  split
  next hout => exact if_pos hout
  next hin => rw [storeRead_of_inRange (by omega) (by omega), Memory.readMany_eq_map]

/-- Settles O32 by what every cell reads as after one write. -/
theorem storeWriteOneChangesOneCell : Obligations.StoreWriteOneChangesOneCell := by
  intro c m a v hm
  exact ⟨fun hout => if_pos hout, fun hin =>
    ⟨m.write a.toNat v, storeWriteOne_of_inRange (by omega), Memory.read_write hm a.toNat v⟩⟩

/-- Settles O33 by what every cell reads as after a run is written. -/
theorem storeWriteManyChangesExactlyItsCells : Obligations.StoreWriteManyChangesExactlyItsCells := by
  intro c m a vs hm
  exact ⟨fun hout => if_pos hout, fun hin =>
    ⟨m.writeMany a.toNat vs, storeWriteMany_of_inRange hin, Memory.read_writeMany hm a.toNat vs⟩⟩

/-! ### The canonical form -/

@[simp] theorem read_nil (j : Nat) : Memory.read [] j = unlistedCell := rfl

@[simp] theorem read_cons_self (a : Nat) (v : Word) (r : Memory) : Memory.read ((a, v) :: r) a = v := by
  simp [Memory.read]

theorem read_cons_of_ne {a j : Nat} (h : a ≠ j) (v : Word) (r : Memory) :
    Memory.read ((a, v) :: r) j = r.read j := by
  simp [Memory.read, h]

/-- A cell that does not read as an unlisted one is listed, so a canonical store's first cell number is at most its. -/
theorem head_le_of_read_ne {a b : Nat} {w : Word} {r : Memory} (hm : Memory.wf ((b, w) :: r))
    (h : Memory.read ((b, w) :: r) a ≠ unlistedCell) : b ≤ a := by
  obtain ⟨hb, -, -⟩ := Memory.wf_cons.mp hm
  by_contra hlt
  refine h (Memory.read_of_lt fun q hq => ?_)
  rcases List.mem_cons.mp hq with rfl | hq
  · exact not_le.mp hlt
  · exact (not_le.mp hlt).trans (hb q hq)

/-- Two canonical stores with the same first pair that read alike have tails that read alike: neither tail lists a cell
up to the first one. -/
theorem read_tail_eq {a : Nat} {v : Word} {r r' : Memory} (hr : ∀ q ∈ r, a < q.1) (hr' : ∀ q ∈ r', a < q.1)
    (h : ∀ j, Memory.read ((a, v) :: r) j = Memory.read ((a, v) :: r') j) (j : Nat) : r.read j = r'.read j := by
  by_cases hj : a = j
  · subst hj
    rw [Memory.read_of_lt hr, Memory.read_of_lt hr']
  · simpa only [read_cons_of_ne hj] using h j

/-- Settles O34, by induction on the first list: a first cell holds a value that no unlisted cell reads as, so it is
listed in the other store too, and neither first cell number is below the other; their values are what that cell reads
as, and the tails read alike. -/
theorem equalReadsAreEqualStores : Obligations.EqualReadsAreEqualStores := by
  intro m
  induction m with
  | nil =>
    rintro (_ | ⟨⟨b, w⟩, r'⟩) - hm' h
    · rfl
    · obtain ⟨-, hw, -⟩ := Memory.wf_cons.mp hm'
      exact absurd (by simpa using (h b).symm) hw
  | cons p r ih =>
    obtain ⟨a, v⟩ := p
    rintro (_ | ⟨⟨b, w⟩, r'⟩) hm hm' h
    · obtain ⟨-, hv, -⟩ := Memory.wf_cons.mp hm
      exact absurd (by simpa using h a) hv
    · obtain ⟨ha, hv, hr⟩ := Memory.wf_cons.mp hm
      obtain ⟨hb, hw, hr'⟩ := Memory.wf_cons.mp hm'
      have hba : b ≤ a := head_le_of_read_ne hm' (by rwa [← h a, read_cons_self])
      have hab : a ≤ b := head_le_of_read_ne hm (by rwa [h b, read_cons_self])
      obtain rfl : a = b := le_antisymm hab hba
      obtain rfl : v = w := by simpa using h a
      rw [ih r' hr hr' (read_tail_eq ha hb h)]

/-! ### A two-cell value on the wire -/

/-- What stands on `tx` after a response whose write succeeded. -/
theorem tx_of_responded {x' : Memory} {resp : List Byte} {always ifSent : List LogEntry} {s t : State}
    (hok : writeSucceeds s = true) (h : Responded x' resp always ifSent s t) : t.tx = s.tx ++ resp := by
  rcases h with ⟨-, rfl⟩ | ⟨k, hfail, -⟩
  · rfl
  · simp [writeSucceeds, hfail] at hok

/-- The response to an accepted `RDH`: the cells asked for. -/
theorem effect_rdh_resp {a q : Word} {s : State} (hqty : 1 ≤ q.toNat ∧ q.toNat ≤ s.cfg.maxReadQty)
    (haddr : a.toNat + q.toNat ≤ s.cfg.regCount) (u : Byte) :
    (effect (.rdh u a q) s).resp = .rRdh (s.x.readMany a.toNat q.toNat) := by
  simp only [effect]
  rw [if_neg (by omega), if_neg (by omega)]

/-- Settles O30: the response is the read response of the cells `a` and `a + 1`, in this order. -/
theorem twoCellValueTravelsLowWordFirst : Obligations.TwoCellValueTravelsLowWordFirst := by
  intro u a f s hok hqty haddr hlow hhigh
  obtain ⟨t, hexec, ht⟩ := exec_responded (.rdh u a 2#16) s
  refine ⟨t, hexec, ?_⟩
  have hcells : s.x.readMany a.toNat 2 = [f.extractLsb' 0 16, f.extractLsb' 16 16] := by
    simp only [Memory.readMany, hlow, hhigh]
  have hresp : (effect (.rdh u a 2#16) s).resp = .rRdh [f.extractLsb' 0 16, f.extractLsb' 16 16] := by
    rw [← hcells]
    exact effect_rdh_resp (q := 2#16) ⟨by decide, hqty⟩ haddr u
  rw [tx_of_responded hok ht, hresp]
  rfl

end Sys2Proof.Proofs
end

section
/-! PROOFS. The encoding (spec/30_encoding.md): decoding and encoding undo each other, the formats byte by byte, and the
expected length of a request. -/

namespace Sys2Proof.Proofs

open Sys2Proof Sys2Proof.Machine

/-! ### The checksum at the end of a frame -/

/-- R112 for a sequence of at least two bytes. -/
theorem verify_append_pair (c : Config) (b : List Byte) (l h : Byte) :
    verify c (b ++ [l, h]) = true ↔ crc16 c b = be16 h l := by
  simp [verify]

theorem verify_frame (c : Config) (u : Byte) (p : List Byte) : verify c (frame c u p) = true :=
  (verify_append_pair c (u :: p) _ _).mpr (be16_hi8_lo8 _).symm

/-- The trailing two bytes of a verified sequence are determined by the bytes before them. -/
theorem eq_frame_of_verify {c : Config} {u l h : Byte} {p : List Byte} (hv : verify c (u :: p ++ [l, h]) = true) :
    u :: p ++ [l, h] = frame c u p := by
  have hcrc : crc16 c (u :: p) = be16 h l := (verify_append_pair c (u :: p) l h).mp hv
  rw [frame, compute, hcrc, lo8_be16, hi8_be16]

/-! ### Decoding is parsing the PDU of a frame -/

/-- What decodes is exactly a frame (R94) whose PDU the direction's parser accepts. -/
theorem decode_eq_ok_iff {c : Config} {d : Direction} {f : List Byte} {i : Instr} :
    decode c d f = .ok i ↔ ∃ u p, p ≠ [] ∧ f = frame c u p ∧ parsePdu c d u p = .ok i := by
  constructor
  · intro h
    have hv := verify_of_decode h
    unfold decode at h
    split at h
    next => cases h
    next u p hsplit =>
      obtain ⟨l, h', rfl, hp⟩ := splitFrame_cases hsplit
      refine ⟨u, p, List.ne_nil_of_length_pos hp, eq_frame_of_verify hv, ?_⟩
      split at h
      next => cases h
      next j hparse =>
        rw [if_pos hv] at h
        cases h
        exact hparse
  · rintro ⟨u, _ | ⟨fc, r⟩, hp, rfl, hparse⟩
    · exact absurd rfl hp
    · simp only [decode, splitFrame_frame, hparse, verify_frame, if_true]

theorem pdu_ne_nil (c : Config) (i : Instr) : pdu c i ≠ [] := by
  cases i <;> exact List.cons_ne_nil _ _

/-! ### Parsing the PDU a frame is encoded with -/

theorem reasonOfByte_reasonByte {c : Config} (h : c.legal) (r : Reason) : reasonOfByte c (reasonByte c r) = some r := by
  obtain ⟨-, -, -, -, -, ⟨functionAddress, functionValue, addressValue⟩, -⟩ := h
  cases r with
  | illegalFunction => simp [reasonOfByte, reasonByte]
  | illegalDataAddress => simp [reasonOfByte, reasonByte, functionAddress.symm]
  | illegalDataValue => simp [reasonOfByte, reasonByte, functionValue.symm, addressValue.symm]

theorem reasonByte_of_reasonOfByte {c : Config} {b : Byte} {r : Reason} (h : reasonOfByte c b = some r) :
    reasonByte c r = b := by
  unfold reasonOfByte at h
  split at h
  next hb => cases h; exact hb.symm
  next =>
    split at h
    next hb => cases h; exact hb.symm
    next =>
      split at h
      next hb => cases h; exact hb.symm
      next => cases h

/-- The byte-count of a read response holds twice the largest read quantity (R8: `P_MAX_READ_QTY` is at most 127). -/
theorem byteCount_toNat {c : Config} (h : c.legal) {n : Nat} (hn : n ≤ c.maxReadQty) :
    (BitVec.ofNat 8 (2 * n)).toNat = 2 * n := by
  obtain ⟨-, -, -, -, -, -, readQty, -⟩ := h
  rw [BitVec.toNat_ofNat]
  omega

theorem not_supported_iff {c : Config} {b : Byte} :
    ¬ c.supported b ↔ b ≠ c.fcRead ∧ b ≠ c.fcWriteSingle ∧ b ≠ c.fcWriteMultiple := by
  simp

/-- The parser of a frame's own direction reads its PDU back. The codes being pairwise different selects the branch. -/
theorem parsePdu_pdu {c : Config} (h : c.legal) {i : Instr} (hwf : i.wellFormed c = true) :
    parsePdu c i.direction (addressByte c i) (pdu c i) = .ok i := by
  obtain ⟨-, -, -, ⟨readSingle, readMulti, singleMulti⟩, -⟩ := id h
  cases i with
  | rdh unit addr qty => simp [parsePdu, Instr.direction, pdu, parseRequest, bigEndian, addressByte]
  | wsr unit addr value =>
    simp [parsePdu, Instr.direction, pdu, parseRequest, bigEndian, addressByte, readSingle.symm]
  | wmr unit addr qty bc data =>
    obtain ⟨-, hlen⟩ : unit = c.unitAddress ∧ data.length = bc.toNat := by simpa [Instr.wellFormed] using hwf
    simp [parsePdu, Instr.direction, pdu, parseRequest, bigEndian, addressByte, readMulti.symm, singleMulti.symm, hlen]
  | illegalFunction unit code payload =>
    simp only [Instr.wellFormed, Bool.and_eq_true, decide_eq_true_eq, not_supported_iff] at hwf
    obtain ⟨-, hread, hsingle, hmulti⟩ := hwf
    simp [parsePdu, Instr.direction, pdu, parseRequest, addressByte, hread, hsingle, hmulti]
  | rRdh values =>
    obtain ⟨hmin, hmax⟩ : 1 ≤ values.length ∧ values.length ≤ c.maxReadQty := by
      simpa [Instr.wellFormed] using hwf
    simp [parsePdu, Instr.direction, pdu, parseResponse, addressByte, byteCount_toNat h hmax, hmin, hmax]
  | rWsr addr value =>
    simp [parsePdu, Instr.direction, pdu, parseResponse, bigEndian, addressByte, readSingle.symm]
  | rWmr addr qty =>
    simp [parsePdu, Instr.direction, pdu, parseResponse, bigEndian, addressByte, readMulti.symm, singleMulti.symm]
  | rExc code reason =>
    simp only [Instr.wellFormed, Bool.and_eq_true, decide_eq_true_eq, not_supported_iff] at hwf
    obtain ⟨hflag, hread, hsingle, hmulti⟩ := hwf
    simp [parsePdu, Instr.direction, pdu, parseResponse, addressByte, hflag, hread, hsingle, hmulti,
      reasonOfByte_reasonByte h]

/-- Settles O5: an encoding is a frame, and the parser of the row's direction reads the row's PDU back. -/
theorem decodeOfEncodeIsTheInstruction : Obligations.DecodeOfEncodeIsTheInstruction := by
  intro c i hc hwf
  exact decode_eq_ok_iff.mpr ⟨addressByte c i, pdu c i, pdu_ne_nil c i, rfl, parsePdu_pdu hc hwf⟩

/-! ### The PDU a parsed frame is encoded with -/

/-- `i` is the frame of direction `d` with the address byte `u` and the PDU `p`, well-formed where `u` is this unit. -/
structure Carries (c : Config) (d : Direction) (u : Byte) (p : List Byte) (i : Instr) : Prop where
  direction : i.direction = d
  address : addressByte c i = u
  pdu : pdu c i = p
  wellFormed : u = c.unitAddress → i.wellFormed c = true

theorem Carries.encode_eq {c : Config} {d : Direction} {u : Byte} {p : List Byte} {i : Instr} (h : Carries c d u p i) :
    encode c i = frame c u p := by
  rw [encode, h.address, h.pdu]

/-- A request accepted by the parser loses nothing, one branch per operation code. -/
theorem carries_of_parseRequest {c : Config} {u : Byte} {p : List Byte} {i : Instr} (h : parseRequest c u p = .ok i) :
    Carries c .request u p i := by
  unfold parseRequest at h
  split at h
  next => cases h
  next fc rest =>
    split at h
    next hread =>
      split at h
      next =>
        cases h
        exact ⟨rfl, rfl, by simp [pdu, bigEndian, hread], fun hu => by simp [Instr.wellFormed, hu]⟩
      next => cases h
    next hread =>
      split at h
      next hsingle =>
        split at h
        next =>
          cases h
          exact ⟨rfl, rfl, by simp [pdu, bigEndian, hsingle], fun hu => by simp [Instr.wellFormed, hu]⟩
        next => cases h
      next hsingle =>
        split at h
        next hmulti =>
          split at h
          next =>
            split at h
            next hlen =>
              cases h
              exact ⟨rfl, rfl, by simp [pdu, bigEndian, hmulti], fun hu => by simp [Instr.wellFormed, hu, hlen]⟩
            next => cases h
          next => cases h
        next hmulti =>
          cases h
          exact ⟨rfl, rfl, rfl, fun hu => by simp [Instr.wellFormed, hu, hread, hsingle, hmulti]⟩

/-- The value bytes of an even byte-count are those of the values read from them, and the count is twice theirs. -/
theorem byteCount_valueBytes {bc : Byte} {data : List Byte} (hlen : data.length = bc.toNat) (heven : bc.toNat % 2 = 0) :
    BitVec.ofNat 8 (2 * (bytesValues data).length) :: valueBytes (bytesValues data) = bc :: data := by
  have hcount : 2 * (bytesValues data).length = bc.toNat := by
    rw [bytesValues_length]
    omega
  rw [hcount, BitVec.ofNat_toNat, BitVec.setWidth_eq, valueBytes_bytesValues data (by omega)]

/-- A response accepted by the parser loses nothing, one branch per operation code. -/
theorem carries_of_parseResponse {c : Config} {u : Byte} {p : List Byte} {i : Instr} (h : parseResponse c u p = .ok i) :
    Carries c .response u p i := by
  unfold parseResponse at h
  split at h
  next => cases h
  next fc rest =>
    split at h
    next => cases h
    next hu =>
      have hunit : c.unitAddress = u := (not_not.mp hu).symm
      split at h
      next hread =>
        split at h
        next bc data =>
          split at h
          next => cases h
          next hlen =>
            have hlen : data.length = bc.toNat := not_not.mp hlen
            split at h
            next hcount =>
              cases h
              obtain ⟨heven, hmin, hmax⟩ := hcount
              refine ⟨rfl, hunit, ?_, fun _ => ?_⟩
              · rw [pdu, byteCount_valueBytes hlen heven, hread]
              · simp [Instr.wellFormed, bytesValues_length, hlen, hmin, hmax]
            next => cases h
        next => cases h
      next hread =>
        split at h
        next hsingle =>
          split at h
          next => cases h; exact ⟨rfl, hunit, by simp [pdu, bigEndian, hsingle], fun _ => rfl⟩
          next => cases h
        next hsingle =>
          split at h
          next hmulti =>
            split at h
            next => cases h; exact ⟨rfl, hunit, by simp [pdu, bigEndian, hmulti], fun _ => rfl⟩
            next => cases h
          next hmulti =>
            split at h
            next hflag =>
              split at h
              next =>
                split at h
                next hreason =>
                  cases h
                  exact ⟨rfl, hunit, by rw [pdu, reasonByte_of_reasonOfByte hreason],
                    fun _ => by simp [Instr.wellFormed, hflag, hread, hsingle, hmulti]⟩
                next => cases h
              next => cases h
            next => cases h

theorem carries_of_parsePdu {c : Config} {d : Direction} {u : Byte} {p : List Byte} {i : Instr}
    (h : parsePdu c d u p = .ok i) : Carries c d u p i := by
  cases d with
  | request => exact carries_of_parseRequest h
  | response => exact carries_of_parseResponse h

/-- Settles O6: what decodes is the frame of an address byte and a PDU, and parsing these loses neither. -/
theorem encodeOfDecodeIsTheFrame : Obligations.EncodeOfDecodeIsTheFrame := by
  intro c d f i h
  obtain ⟨u, p, -, rfl, hparse⟩ := decode_eq_ok_iff.mp h
  have hi := carries_of_parsePdu hparse
  exact ⟨hi.encode_eq, hi.direction, fun hhead => hi.wellFormed (Option.some.inj hhead)⟩

/-! ### The formats, byte by byte -/

/-- Settles O7: each frame is written out and evaluated. -/
theorem decodingOfSpecFrames : Obligations.DecodingOfSpecFrames := by
  refine ⟨?_, ?_, ?_, ?_, ?_, ?_, ?_⟩
  -- the requests of W2, W6 and W8
  · decide +kernel
  · decide +kernel
  · decide +kernel
  -- an exception's bytes read as a request, and as the response they are
  · decide +kernel
  · decide +kernel
  -- the read response, and a request with a wrong checksum
  · decide +kernel
  · decide +kernel

/-- Settles O8: the encoder lists the bytes in this order; only the grouping of the WMR list differs. -/
theorem requestFormats : Obligations.RequestFormats := by
  intro c u a q v bc data
  exact ⟨rfl, rfl, by simp [encode, frame, pdu, addressByte, bigEndian]⟩

/-- R96. -/
theorem addressByte_of_response {c : Config} {i : Instr} (h : i.direction = .response) :
    addressByte c i = c.unitAddress := by
  cases i with
  | rdh | wsr | wmr | illegalFunction => cases h
  | rRdh | rWsr | rWmr | rExc => rfl

theorem head?_encode (c : Config) (i : Instr) : (encode c i).head? = some (addressByte c i) := rfl

/-- Settles O9: the bytes as the encoder lists them, the lengths by `encode_length`, byte 0 by `addressByte`. -/
theorem responseFormats : Obligations.ResponseFormats := by
  intro c vs a v q code r
  refine ⟨⟨?_, encode_length c (.rRdh vs)⟩, ⟨rfl, rfl, rfl⟩, ⟨rfl, rfl⟩, ⟨rfl, rfl⟩, fun i hi => ?_⟩
  · rw [← valueBytes_eq_flatMap]
    rfl
  · rw [head?_encode, addressByte_of_response hi]

/-! ### The expected length -/

/-- R89 for the write-multiple code: the byte-count stands at offset 6. -/
theorem expectedLen_writeMultiple {c : Config} (h : c.legal) (u : Byte) (rest : List Byte) :
    expectedLen c (u :: c.fcWriteMultiple :: rest) =
      if 5 ≤ rest.length then some (.known (9 + (rest.getD 4 0).toNat)) else some .unknown := by
  obtain ⟨-, -, -, ⟨-, readMulti, singleMulti⟩, -⟩ := h
  simp only [expectedLen, readMulti.symm, singleMulti.symm, or_self, if_false, if_true]
  match rest with
  | _ :: _ :: _ :: _ :: _ :: _ => simp
  | [] | [_] | [_, _] | [_, _, _] | [_, _, _, _] => simp

/-- Settles O10, from the address, the code and the rest of the buffer. -/
theorem expectedLenByCode : Obligations.ExpectedLenByCode := by
  rintro c (_ | ⟨u, _ | ⟨fc, rest⟩⟩) hc hlen
  · simp at hlen
  · simp at hlen
  · refine ⟨fun (hfixed : fc = c.fcRead ∨ fc = c.fcWriteSingle) => if_pos hfixed, ?_⟩
    rintro (rfl : fc = c.fcWriteMultiple)
    simp [expectedLen_writeMultiple hc]

end Sys2Proof.Proofs
end

section
/-! PROOFS. The checksum engine (spec/40_checksum.md): the CRC register can be run backwards, so the zero residue of
a whole frame singles out the frame's own code; the comparison `Verify` makes; the check value. -/

namespace Sys2Proof.Proofs

open Sys2Proof Sys2Proof.Machine

/-! ### The halves of a field -/

theorem be16_xor_low (h l : Byte) : be16 h l ^^^ l.setWidth 16 = be16 h 0#8 := by
  apply BitVec.eq_of_getLsbD_eq
  intro i hi
  rw [BitVec.getLsbD_xor, BitVec.getLsbD_setWidth, be16_getLsbD, be16_getLsbD]
  by_cases hlow : i < 8
  · simp [hlow, hi]
  · simp [hlow, BitVec.getLsbD_of_ge l i (by omega)]

theorem be16_zero_ushiftRight (h : Byte) : be16 h 0#8 >>> 8 = be16 0#8 h := by
  apply BitVec.eq_of_getLsbD_eq
  intro i hi
  rw [BitVec.getLsbD_ushiftRight, be16_getLsbD, be16_getLsbD]
  by_cases hlow : i < 8
  · simp [hlow]
  · simp [hlow, BitVec.getLsbD_of_ge h i (by omega)]

/-! ### The CRC register (R110) -/

/-- The bit shifted out comes back as the top bit, when the reflected polynomial has its top bit set. -/
theorem crcShift_top {refl : Word} (htop : refl.getLsbD 15 = true) (x : Word) :
    (crcShift refl x).getLsbD 15 = x.getLsbD 0 := by
  unfold crcShift
  split
  next h =>
    have hout : (x >>> 1).getLsbD 15 = false := by simp
    rw [BitVec.getLsbD_xor, hout, htop, h, Bool.false_xor]
  next h => simpa using h

theorem ushiftRight_one_inj {x y : Word} (hbit : x.getLsbD 0 = y.getLsbD 0) (h : x >>> 1 = y >>> 1) : x = y := by
  apply BitVec.eq_of_getLsbD_eq
  rintro (_ | i) -
  · exact hbit
  · simpa [Nat.add_comm] using congrArg (BitVec.getLsbD · i) h

/-- No two register values shift to the same one: the top bit of the result says which bit was shifted out. -/
theorem crcShift_injective {refl : Word} (htop : refl.getLsbD 15 = true) : Function.Injective (crcShift refl) := by
  intro x y h
  have hbit : x.getLsbD 0 = y.getLsbD 0 := by
    rw [← crcShift_top htop, h, crcShift_top htop]
  apply ushiftRight_one_inj hbit
  unfold crcShift at h
  rw [hbit] at h
  split at h
  next => exact (BitVec.xor_left_inj _).mp h
  next => exact h

theorem crcShifts_injective {refl : Word} (htop : refl.getLsbD 15 = true) (n : Nat) :
    Function.Injective (crcShifts refl n) := by
  induction n with
  | zero => exact fun _ _ h => h
  | succ n ih => exact ih.comp (crcShift_injective htop)

/-- As long as only zeros are shifted out, the polynomial is never mixed in. -/
theorem crcShifts_eq_ushiftRight (refl : Word) (n : Nat) (x : Word) (hlow : ∀ i < n, x.getLsbD i = false) :
    crcShifts refl n x = x >>> n := by
  induction n generalizing x with
  | zero => simp [crcShifts]
  | succ n ih =>
    have hstep : crcShift refl x = x >>> 1 := by rw [crcShift, hlow 0 (by omega), if_neg Bool.false_ne_true]
    rw [crcShifts, hstep, ih (x >>> 1) fun i hi => by simpa using hlow (1 + i) (by omega), ← BitVec.shiftRight_add,
      Nat.add_comm]

theorem crcByte_inj {refl : Word} (htop : refl.getLsbD 15 = true) {x y : Word} {b : Byte} :
    crcByte refl x b = crcByte refl y b ↔ x = y :=
  ((crcShifts_injective htop 8).eq_iff).trans (BitVec.xor_left_inj _)

/-- A byte equal to the low half of the register cancels it and leaves the high half. -/
theorem crcByte_be16 (refl : Word) (h l : Byte) : crcByte refl (be16 h l) l = be16 0#8 h := by
  rw [crcByte, be16_xor_low, crcShifts_eq_ushiftRight refl 8 _ fun i hi => by rw [be16_getLsbD, if_pos hi]; simp,
    be16_zero_ushiftRight]

/-- One byte clears the register exactly when the register is that byte. -/
theorem crcByte_eq_zero_iff {refl : Word} (htop : refl.getLsbD 15 = true) {x : Word} {b : Byte} :
    crcByte refl x b = 0#16 ↔ x = be16 0#8 b := by
  have hzero : crcByte refl (be16 0#8 b) b = 0#16 := crcByte_be16 refl 0#8 b
  rw [← hzero, crcByte_inj htop]

/-- Two bytes clear the register exactly when they are its low and its high half, in this order. -/
theorem crcByte_crcByte_eq_zero_iff {refl : Word} (htop : refl.getLsbD 15 = true) {x : Word} {l h : Byte} :
    crcByte refl (crcByte refl x l) h = 0#16 ↔ x = be16 h l := by
  rw [crcByte_eq_zero_iff htop, ← crcByte_be16 refl h l, crcByte_inj htop]

/-! ### The zero residue (R114) -/

/-- The reflected polynomial has its top bit set when the polynomial has its low bit set. -/
theorem getLsbD_reverse_top {p : Word} (hodd : p.getLsbD 0 = true) : p.reverse.getLsbD 15 = true := by
  rw [BitVec.getLsbD_reverse, BitVec.getMsbD_eq_getLsbD]
  simpa using hodd

/-- With no final XOR the trailing pair is the checksum of the bytes before it exactly when the whole has residue 0. -/
theorem crc16_append_pair_eq_zero_iff {c : Config} (hodd : c.crcPoly.getLsbD 0 = true) (hxor : c.crcXorOut = 0#16)
    (b : List Byte) (l h : Byte) : crc16 c (b ++ [l, h]) = 0#16 ↔ crc16 c b = be16 h l := by
  simp only [crc16, hxor, BitVec.xor_zero, List.foldl_append, List.foldl_cons, List.foldl_nil]
  exact crcByte_crcByte_eq_zero_iff (getLsbD_reverse_top hodd)

/-- Below two bytes the initial value is not cleared, as its high half is not 0. -/
theorem crc16_ne_zero_of_length_lt_two {c : Config} (hodd : c.crcPoly.getLsbD 0 = true) (hxor : c.crcXorOut = 0#16)
    (hinit : hi8 c.crcInit ≠ 0#8) {f : List Byte} (hf : f.length < 2) : crc16 c f ≠ 0#16 := by
  intro hzero
  simp only [crc16, hxor, BitVec.xor_zero] at hzero
  apply hinit
  match f, hf with
  | [], _ =>
    have hclear : c.crcInit = 0#16 := hzero
    rw [hclear]
    rfl
  | [x], _ =>
    have hbyte : c.crcInit = be16 0#8 x := (crcByte_eq_zero_iff (getLsbD_reverse_top hodd)).mp hzero
    rw [hbyte, hi8_be16]

/-! ### `Verify` (R112) -/

theorem verify_of_length_lt_two (c : Config) {f : List Byte} (hf : f.length < 2) : verify c f = false :=
  if_pos hf

theorem verify_append_compute (c : Config) (b : List Byte) : verify c (b ++ compute c b) = true :=
  (verify_append_pair c b _ _).mpr (be16_hi8_lo8 _).symm

theorem exists_append_pair_of_two_le_length {f : List Byte} (hf : 2 ≤ f.length) : ∃ b l h, f = b ++ [l, h] := by
  have hlast : (f.drop (f.length - 2)).length = 2 := by
    rw [List.length_drop]
    omega
  obtain ⟨l, h, hpair⟩ := List.length_eq_two.mp hlast
  exact ⟨f.take (f.length - 2), l, h, by rw [← hpair, List.take_append_drop]⟩

theorem verify_iff_crc16_eq_zero {c : Config} (hodd : c.crcPoly.getLsbD 0 = true) (hxor : c.crcXorOut = 0#16)
    (hinit : hi8 c.crcInit ≠ 0#8) (f : List Byte) : verify c f = true ↔ crc16 c f = 0#16 := by
  rcases Nat.lt_or_ge f.length 2 with hshort | hlong
  · rw [verify_of_length_lt_two c hshort]
    exact iff_of_false Bool.false_ne_true (crc16_ne_zero_of_length_lt_two hodd hxor hinit hshort)
  · obtain ⟨b, l, h, rfl⟩ := exists_append_pair_of_two_le_length hlong
    rw [verify_append_pair, crc16_append_pair_eq_zero_iff hodd hxor]

/-! ### The obligations -/

/-- Settles O3: the zero residue decides as `Verify` does, which accepts what `Compute` appends. -/
theorem zeroResidueIsVerify : Obligations.ZeroResidueIsVerify := by
  intro c hpoly hinit hxor
  have hodd : c.crcPoly.getLsbD 0 = true := by rw [hpoly]; rfl
  have hhigh : hi8 c.crcInit ≠ 0#8 := by rw [hinit]; decide
  have hresidue := verify_iff_crc16_eq_zero hodd hxor hhigh
  exact ⟨fun b => (hresidue _).mp (verify_append_compute c b), hresidue⟩

/-- Settles O1, by evaluating the 72 shifts. -/
theorem crc16CheckValue : Obligations.Crc16CheckValue := by
  unfold Obligations.Crc16CheckValue
  decide +kernel

/-- Settles O2: the comparison of `Verify` is with the two halves of the checksum. -/
theorem checksumRoundTrip : Obligations.ChecksumRoundTrip :=
  verify_append_compute

/-- Settles O4: swapped, the two bytes are the checksum of the bytes before them only when its halves are equal. -/
theorem verifyComparesTheTrailingCode : Obligations.VerifyComparesTheTrailingCode := by
  intro c
  refine ⟨fun f => verify_of_length_lt_two c, verify_append_pair c, fun b => ?_⟩
  rw [verify_append_pair]
  constructor
  · intro hswapped
    have hhalf := congrArg hi8 hswapped
    rwa [hi8_be16] at hhalf
  · intro hequal
    calc crc16 c b = be16 (hi8 (crc16 c b)) (lo8 (crc16 c b)) := (be16_hi8_lo8 _).symm
      _ = be16 (lo8 (crc16 c b)) (hi8 (crc16 c b)) := by rw [hequal]

end Sys2Proof.Proofs
end

section
/-! PROOFS. The frame assembler (spec/41_frame_assembler.md): what each byte does in each state of the assembler, that
framing errors are silent, and that a frame received byte by byte is the instruction it encodes. -/

namespace Sys2Proof.Proofs

open Sys2Proof Sys2Proof.Machine

/-! ### The first two bytes of a frame -/

/-- A capacity that R8 admits holds the longest frame, that of a write-multiple with 255 value bytes. -/
theorem maxFrame_le_bufCap {c : Config} (h : c.legal) : 264 ≤ c.bufCap := by
  obtain ⟨-, -, -, -, -, -, -, -, hcap, -⟩ := h
  exact hcap

/-- At the start of a frame there is nothing to clear. -/
theorem clearFrame_eq_self {s : State} (hst : s.st = .awaitAddress) (hbuf : s.buf = []) : clearFrame s = s := by
  cases s
  cases hst
  cases hbuf
  rfl

/-- At the start of a frame a discard is a log entry and nothing else. -/
theorem discard_of_awaitAddress {s : State} (hst : s.st = .awaitAddress) (hbuf : s.buf = []) (k : DiscardKind) :
    Machine.discard k s = { s with evlog := s.evlog ++ [.discard k] } := by
  rw [Machine.discard, clearFrame_eq_self hst hbuf]
  rfl

/-- Settles O11: the broadcast address 0 is a mismatch, since no unit has it (R8). -/
theorem addressByteIsTested : Obligations.AddressByteIsTested := by
  intro s b hlegal hst hbuf
  have hmismatch {b : Byte} (hb : b ≠ s.cfg.unitAddress) :
      rxByte b s = .next { s with evlog := s.evlog ++ [.discard .addressMismatch] } := by
    rw [rxByte_of_effect (.mismatched hst hb), discard_of_awaitAddress hst hbuf]
  obtain ⟨hunit, -⟩ := hlegal
  exact ⟨fun hb => rxByte_of_effect (.started hst hb), hmismatch, hmismatch hunit.symm⟩

/-- Settles O12: the one byte buffered leaves room for the code. -/
theorem operationCodeIsTested : Obligations.OperationCodeIsTested := by
  intro s b hlegal hst hbuf
  refine ⟨fun hb => ?_, fun hb => rxByte_of_effect (.unsupported hst hb)⟩
  have hcap : s.buf.length < s.cfg.bufCap := by
    have hcapacity := maxFrame_le_bufCap hlegal
    rw [hbuf, List.length_singleton]
    omega
  rw [rxByte_of_effect (.selected hst hb hcap), hbuf]
  rfl

/-! ### The expected length of a supported code -/

/-- R89 for every supported code: the length is not known yet, or it is at most that of the longest frame. -/
theorem expectedLen_of_supported {c : Config} {buf : List Byte} (hlegal : c.legal) (htwo : 2 ≤ buf.length)
    (hcode : c.supported (buf.getD 1 0)) :
    expectedLen c buf = some .unknown ∨ ∃ n ≤ 264, expectedLen c buf = some (.known n) := by
  obtain ⟨hfixed, hmulti⟩ := expectedLenByCode c buf hlegal htwo
  rcases hcode with h | h | h
  · exact .inr ⟨8, by omega, hfixed (.inl h)⟩
  · exact .inr ⟨8, by omega, hfixed (.inr h)⟩
  · rw [hmulti h]
    split
    · exact .inr ⟨_, by omega, rfl⟩
    · exact .inl rfl

/-- A known length stays what it is, whatever follows. -/
theorem expectedLen_append {c : Config} {buf : List Byte} {n : Nat} (h : expectedLen c buf = some (.known n))
    (more : List Byte) : expectedLen c (buf ++ more) = some (.known n) := by
  induction more generalizing buf with
  | nil => rwa [List.append_nil]
  | cons b more ih =>
    rw [List.append_cons]
    exact ih ((expectedLen_of_known h).2 b)

/-- Settles O51: the buffer is shorter than the frame it is to become, in every state of the assembler. -/
theorem bufferBound : Obligations.BufferBound := by
  rintro s ⟨hlegal, -, -, hasm⟩
  rcases hst : s.st with _ | _ | _
  · simp [(assemblerInv_of_awaitAddress hst).mp hasm]
  · simp [(assemblerInv_of_awaitOperationCode hst).mp hasm]
  · obtain ⟨htwo, -, hcode, hinc⟩ := (assemblerInv_of_accumulating hst).mp hasm
    rcases incomplete_iff.mp hinc with hunknown | ⟨n, hn, hlt⟩
    · have hshort := length_of_expectedLen_unknown hunknown
      omega
    · rcases expectedLen_of_supported hlegal htwo hcode with hunknown | ⟨m, hm, hknown⟩
      · simp [hunknown] at hn
      · obtain rfl : m = n := by simpa [hknown] using hn
        omega

/-! ### Whole request frames -/

/-- `f` is what the assembler takes for a whole frame: this unit's address, a supported code, and the length the code
gives it. Its checksum is not looked at. -/
structure Assembled (c : Config) (f : List Byte) : Prop where
  address : f.getD 0 0 = c.unitAddress
  code : c.supported (f.getD 1 0)
  complete : expectedLen c f = some (.known f.length)

theorem Assembled.eight_le_length {c : Config} {f : List Byte} (h : Assembled c f) : 8 ≤ f.length :=
  (expectedLen_of_known h.complete).1

theorem Assembled.length_le_bufCap {c : Config} {f : List Byte} (h : Assembled c f) (hlegal : c.legal) :
    f.length ≤ c.bufCap := by
  have hlong := h.eight_le_length
  have hcap := maxFrame_le_bufCap hlegal
  rcases expectedLen_of_supported hlegal (by omega) h.code with hunknown | ⟨n, hn, hknown⟩
  · simp [h.complete] at hunknown
  · obtain rfl : f.length = n := by simpa [h.complete] using hknown
    omega

/-- The PDU of a sequence of the length its code gives it is accepted by the request parser, one branch per code; a code
that is not supported has no length. -/
theorem parseRequest_of_complete {c : Config} (hlegal : c.legal) {u fc l h : Byte} {rest : List Byte}
    (hlen : expectedLen c (u :: fc :: rest ++ [l, h]) = some (.known (rest.length + 4))) :
    ∃ i, parseRequest c u (fc :: rest) = .ok i := by
  obtain ⟨-, -, -, ⟨readSingle, readMulti, singleMulti⟩, -⟩ := id hlegal
  by_cases hfixed : fc = c.fcRead ∨ fc = c.fcWriteSingle
  · have hfour : rest.length = 4 := by simpa [expectedLen, hfixed, eq_comm] using hlen
    obtain ⟨a1, a0, v1, v0, rfl⟩ : ∃ a1 a0 v1 v0, rest = [a1, a0, v1, v0] := List.length_eq_four.mp hfour
    rcases hfixed with rfl | rfl
    · exact ⟨.rdh u (be16 a1 a0) (be16 v1 v0), by simp [parseRequest]⟩
    · exact ⟨.wsr u (be16 a1 a0) (be16 v1 v0), by simp [parseRequest, readSingle.symm]⟩
  · by_cases hmulti : fc = c.fcWriteMultiple
    · subst hmulti
      rw [List.cons_append, List.cons_append, expectedLen_writeMultiple hlegal] at hlen
      split at hlen
      next =>
        have hcount : 9 + ((rest ++ [l, h]).getD 4 0).toNat = rest.length + 4 := by simpa using hlen
        have hfive : 5 ≤ rest.length := by omega
        match rest with
        | a1 :: a0 :: q1 :: q0 :: bc :: data =>
          have hcount : 9 + bc.toNat = data.length + 5 + 4 := hcount
          have hdata : data.length = bc.toNat := by omega
          exact ⟨.wmr u (be16 a1 a0) (be16 q1 q0) bc data,
            by simp [parseRequest, readMulti.symm, singleMulti.symm, hdata]⟩
        | [] | [_] | [_, _] | [_, _, _] | [_, _, _, _] => simp at hfive
      next => cases hlen
    · simp [expectedLen, hfixed, hmulti] at hlen

/-- A whole frame with a good checksum decodes to one of the rows `RDH`, `WSR`, `WMR`, well-formed. -/
theorem Assembled.decode_eq_ok {c : Config} {f : List Byte} (h : Assembled c f) (hlegal : c.legal)
    (hverify : verify c f = true) :
    ∃ i, decode c .request f = .ok i ∧ i.wellFormed c = true ∧ ∀ u code payload, i ≠ .illegalFunction u code payload := by
  have hlong := h.eight_le_length
  obtain ⟨body, l, h', rfl⟩ := exists_append_pair_of_two_le_length (f := f) (by omega)
  obtain ⟨u, fc, rest, rfl⟩ : ∃ u fc rest, body = u :: fc :: rest := by
    match body with
    | u :: fc :: rest => exact ⟨u, fc, rest, rfl⟩
    | [] | [_] => simp at hlong
  obtain ⟨i, hparse⟩ := parseRequest_of_complete hlegal (by simpa using h.complete)
  have hdecode : decode c .request (u :: fc :: rest ++ [l, h']) = .ok i :=
    decode_eq_ok_iff.mpr ⟨u, fc :: rest, List.cons_ne_nil _ _, eq_frame_of_verify hverify, hparse⟩
  obtain ⟨hencode, -, hwf⟩ := encodeOfDecodeIsTheFrame c .request _ i hdecode
  have hwf : i.wellFormed c = true := hwf (by simpa using h.address)
  refine ⟨i, hdecode, hwf, ?_⟩
  rintro u' code payload rfl
  obtain ⟨-, hunsupported⟩ : u' = c.unitAddress ∧ ¬ c.supported code := by
    simpa only [Instr.wellFormed, Bool.and_eq_true, decide_eq_true_eq] using hwf
  have hcode := h.code
  rw [← hencode] at hcode
  exact hunsupported hcode

/-- The encoding of a well-formed `RDH`, `WSR` or `WMR` is a whole frame for the assembler. -/
theorem assembled_encode {c : Config} (hlegal : c.legal) {i : Instr} (hwf : i.wellFormed c = true)
    (hdir : i.direction = .request) (hrow : ∀ u code payload, i ≠ .illegalFunction u code payload) :
    Assembled c (encode c i) := by
  cases i with
  | rdh unit addr qty =>
    have hunit : unit = c.unitAddress := by simpa [Instr.wellFormed] using hwf
    exact ⟨hunit, .inl rfl, by rw [encode_length]; exact if_pos (.inl rfl)⟩
  | wsr unit addr value =>
    have hunit : unit = c.unitAddress := by simpa [Instr.wellFormed] using hwf
    exact ⟨hunit, .inr (.inl rfl), by rw [encode_length]; exact if_pos (.inr rfl)⟩
  | wmr unit addr qty bc data =>
    obtain ⟨hunit, hlen⟩ : unit = c.unitAddress ∧ data.length = bc.toNat := by simpa [Instr.wellFormed] using hwf
    refine ⟨hunit, .inr (.inr rfl), ?_⟩
    obtain ⟨-, hmulti⟩ := expectedLenByCode c (encode c (.wmr unit addr qty bc data)) hlegal
      (by rw [encode_length, Laws.frameLength]; omega)
    rw [hmulti rfl, encode_length, Laws.frameLength, if_pos (by omega), hlen]
    rfl
  | illegalFunction u code payload => exact absurd rfl (hrow u code payload)
  | rRdh | rWsr | rWmr | rExc => cases hdir

/-! ### A byte in `Accumulating` -/

/-- Settles O13: the invariant gives room for the byte and a length for the code; at that length the buffer is a whole
frame, which decodes exactly when its checksum holds. -/
theorem accumulatingByte : Obligations.AccumulatingByte := by
  intro s b hs hst
  obtain ⟨hlegal, -, -, hasm⟩ := id hs
  obtain ⟨htwo, hunit, hcode, -⟩ := (assemblerInv_of_accumulating hst).mp hasm
  have hcap : s.buf.length < s.cfg.bufCap := by
    have hbound := bufferBound s hs
    have hcapacity := maxFrame_le_bufCap hlegal
    omega
  have hcode : s.cfg.supported ((s.buf ++ [b]).getD 1 0) := by rwa [List.getD_append _ _ _ _ (by omega)]
  refine ⟨fun hshort => ?_, fun hlen hbad => ?_, fun hlen hgood => ?_⟩
  · refine rxByte_of_effect (.accumulated hst hcap ?_)
    refine (expectedLen_of_supported hlegal (by simp; omega) hcode).imp_right ?_
    rintro ⟨n, -, hn⟩
    exact ⟨n, hn, fun heq => hshort (heq ▸ hn)⟩
  · rcases hdecode : decode s.cfg .request (s.buf ++ [b]) with e | i
    · exact rxByte_of_effect (.corrupted hst hcap hlen e hdecode)
    · simp [verify_of_decode hdecode] at hbad
  · have hframe : Assembled s.cfg (s.buf ++ [b]) :=
      ⟨by rwa [List.getD_append _ _ _ _ (by omega)], hcode, by simpa using hlen⟩
    obtain ⟨i, hdecode, hwf, hrow⟩ := hframe.decode_eq_ok hlegal hgood
    obtain ⟨t, hexec, -⟩ := exec_responded i { s with buf := s.buf ++ [b] }
    exact ⟨i, t, hdecode, hwf, hrow, hexec, rxByte_of_effect (.executed hst hcap hlen i t hdecode hexec)⟩

/-- Settles O14: the step is the byte step, whose effect is the execution. -/
theorem stepRunsTheDecodedInstruction : Obligations.StepRunsTheDecodedInstruction := by
  intro s b i hlegal hrun hstop hturn hunit hst hcap hlen hdecode
  obtain ⟨t, hexec, -⟩ := exec_responded i { unitTaken (turnTaken s) with buf := s.buf ++ [b] }
  rw [step_of_byte hlegal hrun hstop hturn hunit, hexec]
  exact rxByte_of_effect (.executed (s := unitTaken (turnTaken s)) hst hcap hlen i t hdecode hexec)

/-! ### Framing errors (R140, R230) -/

/-- From `s` to `t` a framing error was logged and the candidate frame dropped, and nothing was sent or written. -/
def SilentDiscard (k : DiscardKind) (s t : State) : Prop :=
  t.evlog = s.evlog ++ [.discard k] ∧ t.tx = s.tx ∧ t.x = s.x ∧ t.run = s.run ∧ t.buf = [] ∧ t.st = .awaitAddress

/-- From `s` to `t` something was logged or nothing, but no framing error. -/
def LogsNoDiscard (s t : State) : Prop :=
  ∃ es, t.evlog = s.evlog ++ es ∧ ∀ k, LogEntry.discard k ∉ es

theorem logsNoDiscard_of_evlog_eq {s t : State} (h : t.evlog = s.evlog) : LogsNoDiscard s t :=
  ⟨[], by rw [h, List.append_nil], fun _ => List.not_mem_nil⟩

/-- A framing error found among the new log entries is the one a silent discard logs. -/
theorem silentDiscard_of_mem {s t : State} {k : DiscardKind} (h : LogsNoDiscard s t ∨ ∃ k', SilentDiscard k' s t)
    (hmem : LogEntry.discard k ∈ t.evlog.drop s.evlog.length) : SilentDiscard k s t := by
  rcases h with ⟨es, hlog, hnone⟩ | ⟨k', hk'⟩
  · rw [hlog, List.drop_left] at hmem
    exact absurd hmem (hnone k)
  · obtain ⟨hlog, -⟩ := id hk'
    rw [hlog, List.drop_left] at hmem
    obtain rfl : k = k' := by simpa using hmem
    exact hk'

theorem excEffect_logs_no_discard (fc : Byte) (r : Reason) (s : State) (k : DiscardKind) :
    LogEntry.discard k ∉ (excEffect fc r s).always ++ (excEffect fc r s).ifSent := by
  simp [excEffect]

/-- What an instruction logs is a notification or a protocol exception. -/
theorem effect_logs_no_discard (i : Instr) (s : State) (k : DiscardKind) :
    LogEntry.discard k ∉ (effect i s).always ++ (effect i s).ifSent := by
  cases i with
  | rdh unit a q =>
    simp only [effect]
    split
    next => exact excEffect_logs_no_discard _ _ _ k
    next =>
      split
      next => exact excEffect_logs_no_discard _ _ _ k
      next => simp
  | wsr unit a v =>
    simp only [effect]
    split
    next => exact excEffect_logs_no_discard _ _ _ k
    next => simp
  | wmr unit a q bc data =>
    simp only [effect]
    split
    next => exact excEffect_logs_no_discard _ _ _ k
    next =>
      split
      next => exact excEffect_logs_no_discard _ _ _ k
      next => simp
  | illegalFunction unit code payload => exact excEffect_logs_no_discard _ _ _ k
  | rRdh | rWsr | rWmr | rExc => simp [effect]

theorem exec_logsNoDiscard {i : Instr} {s t : State} (h : exec i s = .next t) : LogsNoDiscard s t := by
  have hnone := effect_logs_no_discard i s
  rcases responded_of_exec h with ⟨-, rfl⟩ | ⟨k, -, rfl⟩
  · exact ⟨_, rfl, hnone⟩
  · exact ⟨_, rfl, fun k hk => hnone k (List.mem_append_left _ hk)⟩

/-- A byte logs a framing error exactly where the assembler discards. -/
theorem rxEffect_logsNoDiscard_or_silent {b : Byte} {s t : State} (h : RxEffect b s t) :
    LogsNoDiscard s t ∨ ∃ k, SilentDiscard k s t := by
  cases h with
  | started | selected | accumulated => exact .inl (logsNoDiscard_of_evlog_eq rfl)
  | executed hst hcap hlen i u hi hu =>
    exact .inl (exec_logsNoDiscard (s := { s with buf := s.buf ++ [b] }) (t := u) hu)
  | mismatched | unsupported | corrupted => exact .inr ⟨_, rfl, rfl, rfl, rfl, rfl, rfl⟩

theorem workerEffect_logsNoDiscard_or_silent {s t : State} (h : WorkerEffect s t) :
    LogsNoDiscard s t ∨ ∃ k, SilentDiscard k s t := by
  cases h with
  | idle | stopped | timedOut | closed => exact .inl (logsNoDiscard_of_evlog_eq rfl)
  | byte b t hrun hstop hrx ht => exact rxEffect_logsNoDiscard_or_silent (s := unitTaken s) ht

/-- Settles O56: of the agents other than reset only the worker logs, and a framing error only where it discards. -/
theorem framingErrorsAreSilent : Obligations.FramingErrorsAreSilent := by
  intro s t k h hturn hmem
  have hlogs : LogsNoDiscard s t ∨ ∃ k, SilentDiscard k s t := by
    obtain ⟨-, ⟨-, hw⟩ | ⟨call, -, rfl⟩ | ⟨hreset, -⟩ | ⟨-, rfl⟩⟩ := step_cases h
    · exact workerEffect_logsNoDiscard_or_silent (s := turnTaken s) hw
    · obtain ⟨-, -, -, -, -, hlog, -⟩ := hostStep_frame call (turnTaken s)
      exact .inl (logsNoDiscard_of_evlog_eq hlog)
    · exact absurd hreset hturn
    · exact .inl (logsNoDiscard_of_evlog_eq rfl)
  exact silentDiscard_of_mem hlogs hmem

/-! ### A frame received byte by byte -/

/-- `s` with another buffer and another state of the assembler. -/
def withBuffer (buf : List Byte) (st : AsmState) (s : State) : State :=
  { s with buf := buf, st := st }

/-- An instruction reads neither the buffer nor the state of the assembler. -/
theorem exec_withBuffer {i : Instr} {s t : State} (h : exec i s = .next t) (buf : List Byte) (st : AsmState) :
    exec i (withBuffer buf st s) = .next (withBuffer buf st t) := by
  have heffect : effect i (withBuffer buf st s) = effect i s := by cases i <;> rfl
  rw [exec_eq_next_iff, heffect]
  rcases responded_of_exec h with ⟨hok, rfl⟩ | ⟨k, hfail, rfl⟩
  · exact .inl ⟨hok, rfl⟩
  · exact .inr ⟨k, hfail, rfl⟩

/-- The state of the assembler when it has buffered these bytes of a frame (R131, R134). -/
def asmStateAfter : List Byte → AsmState
  | [] => .awaitAddress
  | [_] => .awaitOperationCode
  | _ :: _ :: _ => .accumulating

/-- `s` with as many turns and units used up as bytes are given. -/
def unitsTaken (got : List Byte) (s : State) : State :=
  { s with rx := s.rx.drop got.length, rxCount := s.rxCount + got.length,
           turns := s.turns.drop got.length, turnCount := s.turnCount + got.length }

/-- `s` after the worker has read the bytes `got`, the beginning of a frame. -/
def midFrame (got : List Byte) (s : State) : State :=
  withBuffer got (asmStateAfter got) (unitsTaken got s)

/-- At `AwaitAddress` a frame begins with nothing read. -/
theorem midFrame_nil {s : State} (hst : s.st = .awaitAddress) (hbuf : s.buf = []) : midFrame [] s = s :=
  clearFrame_eq_self hst hbuf

/-- Reading the next byte of a frame, before the assembler takes it. -/
theorem unitTaken_midFrame (got : List Byte) (b : Byte) (s : State) :
    unitTaken (turnTaken (midFrame got s)) = withBuffer got (asmStateAfter got) (unitsTaken (got ++ [b]) s) := by
  simp [midFrame, withBuffer, unitsTaken, unitTaken, turnTaken, Nat.add_assoc]

/-- The bytes of `f` are next on the line, each with a turn of the worker, who is running; `rest` and `ts` come after. -/
structure OnTheLine (f : List Byte) (rest : List RxUnit) (ts : List Turn) (s : State) : Prop where
  legal : s.cfg.legal
  running : s.run = .running
  notStopped : s.stopReq = false
  rx : s.rx = f.map .byte ++ rest
  turns : s.turns = List.replicate f.length .worker ++ ts

/-- In the middle of the frame the worker's step is the byte step for the frame's next byte. -/
theorem OnTheLine.step_midFrame {got left : List Byte} {b : Byte} {rest : List RxUnit} {ts : List Turn} {s : State}
    (h : OnTheLine (got ++ b :: left) rest ts s) :
    step (midFrame got s) = rxByte b (withBuffer got (asmStateAfter got) (unitsTaken (got ++ [b]) s)) := by
  rw [← unitTaken_midFrame]
  refine step_of_byte h.legal h.running h.notStopped ?_ ?_
  · have hturns : (midFrame got s).turns = .worker :: (List.replicate left.length .worker ++ ts) := by
      simp [midFrame, withBuffer, unitsTaken, h.turns, List.replicate_add, List.replicate_succ]
    rw [nextTurn, hturns]
    rfl
  · have hrx : (midFrame got s).rx = .byte b :: (left.map .byte ++ rest) := by
      simp [midFrame, withBuffer, unitsTaken, h.rx]
    rw [nextUnit, hrx]
    rfl

/-- A byte of a whole frame other than its last is taken into the buffer. -/
theorem rxEffect_of_assembled {got left : List Byte} {b : Byte} {s : State} (hlegal : s.cfg.legal)
    (hframe : Assembled s.cfg (got ++ b :: left)) (hleft : left ≠ []) :
    RxEffect b (withBuffer got (asmStateAfter got) s) (withBuffer (got ++ [b]) (asmStateAfter (got ++ [b])) s) := by
  have hmore : 0 < left.length := List.length_pos_iff.mpr hleft
  have hcap : got.length < s.cfg.bufCap := by
    have hfits := hframe.length_le_bufCap hlegal
    rw [List.length_append, List.length_cons] at hfits
    omega
  match got with
  | [] => exact .started rfl hframe.address
  | [u] => exact .selected (s := withBuffer [u] .awaitOperationCode s) rfl hframe.code hcap
  | u :: fc :: got =>
    refine .accumulated (s := withBuffer (u :: fc :: got) .accumulating s) rfl hcap ?_
    have hlen := expectedLen_of_supported (buf := u :: fc :: got ++ [b]) hlegal (by simp) hframe.code
    refine hlen.imp_right ?_
    rintro ⟨n, -, hn⟩
    refine ⟨n, hn, fun (hreached : (u :: fc :: got).length + 1 = n) => ?_⟩
    have hwhole : expectedLen s.cfg (u :: fc :: got ++ b :: left) = some (.known n) := by
      rw [List.append_cons]
      exact expectedLen_append hn left
    have hexact : (u :: fc :: got ++ b :: left).length = n := by simpa using hframe.complete.symm.trans hwhole
    simp only [List.length_append, List.length_cons] at hexact hreached
    omega

/-- Up to the last byte of a whole frame the worker's iterations only fill the buffer, by induction over the bytes to
come. -/
theorem run_midFrame {left got : List Byte} {b : Byte} {rest : List RxUnit} {ts : List Turn} {s : State}
    (hline : OnTheLine (got ++ left ++ [b]) rest ts s) (hframe : Assembled s.cfg (got ++ left ++ [b])) :
    Sys2Proof.core.run (left.length + 1) (midFrame got s) = Sys2Proof.core.run 1 (midFrame (got ++ left) s) := by
  induction left generalizing got with
  | nil => rw [List.append_nil, List.length_nil]
  | cons b' left ih =>
    have hsplit : got ++ b' :: left ++ [b] = got ++ b' :: (left ++ [b]) := by simp
    have hstep : step (midFrame got s) = .next (midFrame (got ++ [b']) s) := by
      rw [hsplit] at hline hframe
      rw [hline.step_midFrame]
      exact rxByte_of_effect (rxEffect_of_assembled (s := unitsTaken (got ++ [b']) s) hline.legal hframe (by simp))
    rw [List.length_cons, run_succ hstep, List.append_cons got b' left]
    rw [List.append_cons got b' left] at hline hframe
    exact ih hline hframe

/-- With the last byte of a whole frame in, the instruction it decodes to was executed. -/
theorem step_midFrame_last {got : List Byte} {b : Byte} {rest : List RxUnit} {ts : List Turn} {s t : State} {i : Instr}
    (hline : OnTheLine (got ++ [b]) rest ts s) (hframe : Assembled s.cfg (got ++ [b]))
    (hdecode : decode s.cfg .request (got ++ [b]) = .ok i)
    (hexec : exec i (unitsTaken (got ++ [b]) s) = .next t) :
    step (midFrame got s) = .next (clearFrame t) := by
  have hfits := hframe.length_le_bufCap hline.legal
  have hlong := hframe.eight_le_length
  have hlen := hframe.complete
  rw [List.length_append, List.length_singleton] at hfits hlong hlen
  have hst : asmStateAfter got = .accumulating := by
    match got with
    | _ :: _ :: _ => rfl
    | [] | [_] => simp at hlong
  rw [hline.step_midFrame, hst]
  exact rxByte_of_effect (.executed (s := withBuffer got .accumulating (unitsTaken (got ++ [b]) s)) rfl hfits hlen i
    (withBuffer (got ++ [b]) .accumulating t) hdecode (exec_withBuffer hexec (got ++ [b]) .accumulating))

/-- Settles O15: the run is the buffering of all bytes but the last (`run_midFrame`) and the last one's execution
(`step_midFrame_last`), after which the assembler is where it was at the start. -/
theorem frameByteByByteIsTheInstruction : Obligations.FrameByteByByteIsTheInstruction := by
  intro s i rest ts hs hst hrun hstop hwf hdir hrow hrx hturns
  obtain ⟨hlegal, -, -, hasm⟩ := hs
  have hbuf : s.buf = [] := (assemblerInv_of_awaitAddress hst).mp hasm
  have hframe := assembled_encode hlegal hwf hdir hrow
  have hdecode := decodeOfEncodeIsTheInstruction s.cfg i hlegal hwf
  rw [hdir] at hdecode
  have hline : OnTheLine (encode s.cfg i) rest ts s := ⟨hlegal, hrun, hstop, hrx, hturns⟩
  have hafter : unitsTaken (encode s.cfg i) s =
      { s with rx := rest, rxCount := s.rxCount + (encode s.cfg i).length,
               turns := ts, turnCount := s.turnCount + (encode s.cfg i).length } := by
    simp [unitsTaken, hrx, hturns]
  rw [← hafter]
  generalize encode s.cfg i = f at hline hframe hdecode
  obtain ⟨t, hexec, ht⟩ := exec_responded i (unitsTaken f s)
  obtain ⟨got, b, rfl⟩ : ∃ got b, f = got ++ [b] :=
    (List.eq_nil_or_concat' f).resolve_left (by rintro rfl; simpa using hframe.eight_le_length)
  obtain ⟨-, -, hst', hbuf', -⟩ := ht.frame
  have hclear : clearFrame t = t := clearFrame_eq_self (hst'.trans hst) (hbuf'.trans hbuf)
  have hlast : step (midFrame got s) = .next t := by
    rw [step_midFrame_last hline hframe hdecode hexec, hclear]
  have hfill := run_midFrame (got := []) hline hframe
  rw [midFrame_nil hst hbuf] at hfill
  rw [List.length_append, List.length_singleton, hexec]
  exact hfill.trans (run_succ hlast)

end Sys2Proof.Proofs
end

section
/-! PROOFS. The dispatcher and the response builder (spec/42_operations.md): the next state of each operation, what it
writes to the registers, and its one response, sent whole or cut short. -/

namespace Sys2Proof.Proofs

open Sys2Proof Sys2Proof.Machine

/-! ### An instruction whose response is sent, and one whose write fails -/

/-- `s` after an effect whose response was sent whole. -/
def afterSent (e : Effect) (s : State) : State :=
  { sent e.resp s with x := e.x, evlog := s.evlog ++ (e.always ++ e.ifSent) }

/-- `s` after an effect whose response was cut short after `k` bytes. -/
def afterFailed (k : Nat) (e : Effect) (s : State) : State :=
  { resultTaken s with x := e.x, tx := s.tx ++ failedPrefix k (encode s.cfg e.resp), run := .linkFailed,
                       evlog := s.evlog ++ e.always }

theorem exec_of_succeeds {s : State} (hok : writeSucceeds s = true) (i : Instr) :
    exec i s = .next (afterSent (effect i s) s) :=
  exec_eq_next_iff.mpr (.inl ⟨hok, rfl⟩)

theorem exec_of_fails {s : State} {k : Nat} (hfail : nextResult s = .fail k) (i : Instr) :
    exec i s = .next (afterFailed k (effect i s) s) :=
  exec_eq_next_iff.mpr (.inr ⟨k, hfail, rfl⟩)

/-- Settles O22, by the two outcomes of `Send`. -/
theorem sendEmitsAllOrAPrefix : Obligations.SendEmitsAllOrAPrefix := by
  intro resp s
  refine ⟨fun hok => send_of_succeeds (writeSucceeds_iff.mpr hok) resp, fun k hfail hk => ?_⟩
  rw [send_of_fails hfail, failedPrefix_of_lt hk]

/-! ### The next state of each operation -/

/-- Settles O17, one branch of the effect after the other. -/
theorem readHoldingRegisters : Obligations.ReadHoldingRegisters := by
  intro u a q s hok
  rw [exec_of_succeeds hok]
  simp only [effect]
  split
  next => rfl
  next =>
    split
    next => rfl
    next =>
      rw [Memory.readMany_eq_map]
      rfl

/-- Settles O18, one branch of the effect after the other. -/
theorem writeSingleRegister : Obligations.WriteSingleRegister := by
  intro u a v s hok
  rw [exec_of_succeeds hok]
  simp only [effect]
  split
  next => rfl
  next => rfl

/-- The values of a write-multiple whose value bytes are twice as many as its quantity (R84): all of them are taken. -/
theorem take_bytesValues {data : List Byte} {n : Nat} (hlen : data.length = 2 * n) :
    (bytesValues data).take n =
      (List.range n).map fun k => be16 (data.getD (2 * k) 0) (data.getD (2 * k + 1) 0) := by
  have hcount : data.length / 2 = n := by omega
  rw [List.take_of_length_le (by rw [bytesValues_length, hcount]), bytesValues_eq_map, hcount]

/-- Settles O19, one branch of the effect after the other. -/
theorem writeMultipleRegisters : Obligations.WriteMultipleRegisters := by
  intro u a q bc data s hok hlen
  rw [exec_of_succeeds hok]
  simp only [effect]
  split
  next => rfl
  next =>
    split
    next => rfl
    next =>
      rw [take_bytesValues (n := q.toNat) (by omega)]
      rfl

/-- An instruction whose effect is to send itself, as a response row's is, logs nothing and leaves the store. -/
theorem exec_response_of_succeeds {s : State} (hok : writeSucceeds s = true) {i : Instr}
    (heff : effect i s = ⟨s.x, i, [], []⟩) : exec i s = .next (sent i s) := by
  rw [exec_of_succeeds hok, heff]
  simp [afterSent, sent]

/-- Settles O21: each response row's effect is to send itself and nothing else. -/
theorem responsesAreSentWhole : Obligations.ResponsesAreSentWhole := fun _ hok =>
  ⟨fun vs => exec_response_of_succeeds hok (i := .rRdh vs) rfl,
    fun a v => exec_response_of_succeeds hok (i := .rWsr a v) rfl,
    fun a q => exec_response_of_succeeds hok (i := .rWmr a q) rfl,
    fun code r => exec_response_of_succeeds hok (i := .rExc code r) rfl⟩

/-! ### The kinds of effect -/

/-- Everything an instruction's effect can be: a refused request, an answered one, or a response to be sent. -/
inductive EffectKind (i : Instr) (s : State) : Effect → Prop where
  /-- A protocol exception; IllegalFunction is the reason of the row for it alone (R164, R166). -/
  | refused (fc : Byte) (r : Reason) (hdir : i.direction = .request)
      (hreason : r = .illegalFunction → ∃ u payload, i = .illegalFunction u fc payload) :
      EffectKind i s (excEffect fc r s)
  /-- A success response and, after it, the notification (R160, R169). -/
  | answered (x : Memory) (resp : Instr) (req : Request) (hdir : i.direction = .request)
      (hresp : resp.direction = .response) (hwf : resp.wellFormed s.cfg = true) :
      EffectKind i s ⟨x, resp, [], [.notify req]⟩
  /-- A response row (R165). -/
  | response (hdir : i.direction = .response) : EffectKind i s ⟨s.x, i, [], []⟩

theorem effectKind_of_effect (i : Instr) (s : State) : EffectKind i s (effect i s) := by
  cases i with
  | rdh u a q =>
    simp only [effect]
    split
    next => exact .refused _ _ rfl nofun
    next hqty =>
      split
      next => exact .refused _ _ rfl nofun
      next =>
        have hwf : (Instr.rRdh (s.x.readMany a.toNat q.toNat)).wellFormed s.cfg = true := by
          simp only [Instr.wellFormed, Memory.readMany_length, Bool.and_eq_true, decide_eq_true_eq]
          omega
        exact .answered _ _ _ rfl rfl hwf
  | wsr u a v =>
    simp only [effect]
    split
    next => exact .refused _ _ rfl nofun
    next => exact .answered _ _ _ rfl rfl rfl
  | wmr u a q bc data =>
    simp only [effect]
    split
    next => exact .refused _ _ rfl nofun
    next =>
      split
      next => exact .refused _ _ rfl nofun
      next => exact .answered _ _ _ rfl rfl rfl
  | illegalFunction u code payload => exact .refused code _ rfl (fun _ => ⟨u, payload, rfl⟩)
  | rRdh | rWsr | rWmr | rExc => exact .response rfl

/-- Of an effect's log entries, the notifications are those of a response that was sent. -/
theorem EffectKind.filter_not_isNotify {i : Instr} {s : State} {e : Effect} (h : EffectKind i s e) :
    (e.always ++ e.ifSent).filter (fun entry => !entry.isNotify) = e.always := by
  cases h with
  | refused | answered | response => rfl

/-- An effect logs at most one entry. -/
theorem EffectKind.logs_length_le_one {i : Instr} {s : State} {e : Effect} (h : EffectKind i s e) :
    (e.always ++ e.ifSent).length ≤ 1 := by
  cases h with
  | refused | answered => exact le_rfl
  | response => exact Nat.zero_le 1

/-- Only the row for it is answered with IllegalFunction. -/
theorem EffectKind.illegalFunction_not_mem_logs {i : Instr} {s : State} {e : Effect} (h : EffectKind i s e)
    (hrow : ∀ u code payload, i ≠ .illegalFunction u code payload) (fc : Byte) :
    LogEntry.protoExc fc .illegalFunction ∉ e.always ++ e.ifSent := by
  cases h with
  | refused fc' r hdir hreason =>
    intro hmem
    obtain ⟨-, rfl⟩ : fc = fc' ∧ Reason.illegalFunction = r := by simpa [excEffect] using hmem
    obtain ⟨u, payload, hi⟩ := hreason rfl
    exact hrow u fc' payload hi
  | answered => simp
  | response => exact List.not_mem_nil

/-! ### What grows, and the transmit failure -/

/-- What a response adds to the event log: its entries, or with a failed write the first of them. -/
theorem evlog_of_responded {x' : Memory} {resp : List Byte} {always ifSent : List LogEntry} {s t : State}
    (h : Responded x' resp always ifSent s t) : ∃ es, t.evlog = s.evlog ++ es ∧ es <+: always ++ ifSent := by
  rcases h with ⟨-, rfl⟩ | ⟨k, -, rfl⟩
  · exact ⟨always ++ ifSent, rfl, List.prefix_rfl⟩
  · exact ⟨always, rfl, List.prefix_append always ifSent⟩

/-- Settles O24: what a response leaves alone, what it adds to `tx`, and that an effect logs at most one entry. -/
theorem everyInstructionCompletes : Obligations.EveryInstructionCompletes := by
  intro i s
  obtain ⟨t, hexec, ht⟩ := exec_responded i s
  obtain ⟨hcfg, -, hst, hbuf, hstop, hturns, hrx, hres, htxResults, hturnCount, hrxCount, htxCount⟩ := ht.frame
  obtain ⟨_, bs, hgrows⟩ := exec_growsAlike hexec
  obtain ⟨es, hlog, hprefix⟩ := evlog_of_responded ht
  exact ⟨t, hexec, hcfg, hst, hbuf, hstop, hturns, hrx, hres, hturnCount, hrxCount, htxResults, htxCount,
    ⟨bs, hgrows.tx⟩, es, hlog, hprefix.length_le.trans (effectKind_of_effect i s).logs_length_le_one⟩

/-- `s` with a next write that succeeds in place of the one that would be answered. -/
def withWriteOk (s : State) : State :=
  { s with txResults := .ok :: s.txResults.tail }

theorem writeSucceeds_withWriteOk (s : State) : writeSucceeds (withWriteOk s) = true := rfl

/-- An instruction's effect does not depend on the write of its response. -/
@[simp] theorem effect_withWriteOk (i : Instr) (s : State) : effect i (withWriteOk s) = effect i s := by
  cases i <;> rfl

/-- Settles O23: with the write that succeeds the effect is the same (`effect_withWriteOk`), and of its log entries the
failed write leaves out the notification (`EffectKind.filter_not_isNotify`). -/
theorem transmitFailureKeepsTheStoreChange : Obligations.TransmitFailureKeepsTheStoreChange := by
  intro i s k hfail
  refine ⟨afterSent (effect i s) (withWriteOk s), encode s.cfg (effect i s).resp,
    (effect i s).always ++ (effect i s).ifSent, ?_, rfl, rfl, fun hk => ?_⟩
  · rw [← effect_withWriteOk i s]
    exact exec_of_succeeds (writeSucceeds_withWriteOk s) i
  · rw [exec_of_fails hfail, (effectKind_of_effect i s).filter_not_isNotify, ← failedPrefix_of_lt hk]
    rfl

/-! ### The registers after an instruction -/

/-- The registers after an instruction are those of its effect, whatever the write of its response comes to. -/
theorem x_of_exec {i : Instr} {s t : State} (h : exec i s = .next t) : t.x = (effect i s).x := by
  obtain ⟨-, hx, -⟩ := (responded_of_exec h).frame
  exact hx

/-- Settles O25: `WSR` and `WMR` alone write registers. -/
theorem readsAndResponsesChangeNoRegister : Obligations.ReadsAndResponsesChangeNoRegister := by
  intro i s t h hwsr hwmr j
  rw [x_of_exec h]
  rcases effect_x_eq_or_write i s with hx | ⟨u, a, v, rfl⟩ | ⟨u, a, q, bc, data, rfl⟩
  · rw [hx]
  · exact absurd rfl (hwsr u a v)
  · exact absurd rfl (hwmr u a q bc data)

/-- Settles O26: the effect of `WSR` is a refusal past the last cell, else one write. -/
theorem writeSingleChangesOneCell : Obligations.WriteSingleChangesOneCell := by
  intro u a v s t hwf h j
  rw [x_of_exec h]
  simp only [effect]
  split
  next hout => rw [excEffect_x, if_neg (by omega)]
  next hin => simp only [Memory.read_write hwf, not_le.mp hin, true_and]

/-- Settles O27: the effect of `WMR` is a refusal, which leaves the registers, or the write of a run of as many values
as the quantity says. -/
theorem writeMultipleChangesExactlyItsCells : Obligations.WriteMultipleChangesExactlyItsCells := by
  intro u a q bc data s t hwf hlen h j
  rw [x_of_exec h]
  simp only [effect]
  split
  next hvalue => rw [excEffect_x, if_neg (by omega)]
  next hvalue =>
    split
    next haddr => rw [excEffect_x, if_neg (by omega)]
    next haddr =>
      rw [take_bytesValues (n := q.toNat) (by omega), Memory.read_writeMany hwf, List.length_map, List.length_range]
      by_cases hcell : a.toNat ≤ j ∧ j < a.toNat + q.toNat
      · rw [if_pos hcell, if_pos ⟨by omega, hcell⟩]
        have hk : j - a.toNat < q.toNat := by omega
        simp [hk]
      · rw [if_neg hcell, if_neg fun hboth => hcell hboth.2]

/-! ### The one response of a request -/

/-- At the default of `P_EXC_FLAG` the code byte of an exception response has its top bit set, which no supported code
has (R8). -/
theorem wellFormed_rExc {c : Config} (hlegal : c.legal) (hflag : c.excFlag = 0x80#8) (fc : Byte) (r : Reason) :
    (Instr.rExc (fc ||| c.excFlag) r).wellFormed c = true := by
  obtain ⟨-, -, -, -, ⟨readLow, singleLow, multiLow⟩, -⟩ := hlegal
  have hhigh : 0x80 ≤ (fc ||| c.excFlag).toNat := by
    rw [hflag, BitVec.toNat_or]
    exact Nat.right_le_or
  have hsupported : ¬ c.supported (fc ||| c.excFlag) := by
    rintro (h | h | h) <;> rw [h] at hhigh <;> omega
  have hset : fc ||| c.excFlag ||| c.excFlag = fc ||| c.excFlag := by rw [BitVec.or_assoc, BitVec.or_self]
  simp only [Instr.wellFormed, hset, hsupported, not_false_eq_true, decide_true, Bool.and_self]

/-- A request's effect is to send a well-formed response, an exception or a success. -/
theorem EffectKind.resp_of_request {i : Instr} {s : State} {e : Effect} (h : EffectKind i s e) (hlegal : s.cfg.legal)
    (hflag : s.cfg.excFlag = 0x80#8) (hreq : i.direction = .request) :
    e.resp.direction = .response ∧ e.resp.wellFormed s.cfg = true := by
  cases h with
  | refused fc r => exact ⟨rfl, wellFormed_rExc hlegal hflag fc r⟩
  | answered x resp req hdir hresp hwf => exact ⟨hresp, hwf⟩
  | response hdir => simp [hreq] at hdir

/-- Settles O29: a well-formed response is what its frame decodes to (O5). -/
theorem everyRequestGetsOneWellFormedResponse : Obligations.EveryRequestGetsOneWellFormedResponse := by
  intro i s t hlegal hflag hreq _ hok h
  obtain ⟨hdir, hwf⟩ := (effectKind_of_effect i s).resp_of_request hlegal hflag hreq
  refine ⟨(effect i s).resp, hwf, tx_of_responded hok (responded_of_exec h), ?_⟩
  rw [← hdir]
  exact decodeOfEncodeIsTheInstruction s.cfg _ hlegal hwf

/-! ### The row for unsupported codes is reached by no byte stream -/

/-- A sequence that has an expected length has a supported code (R89). -/
theorem supported_of_expectedLen {c : Config} {u fc : Byte} {rest : List Byte} {l : FrameLen}
    (h : expectedLen c (u :: fc :: rest) = some l) : c.supported fc := by
  by_contra hunsupported
  obtain ⟨hread, hsingle, hmulti⟩ := not_supported_iff.mp hunsupported
  simp [expectedLen, hread, hsingle, hmulti] at h

/-- The parser reads the row for unsupported codes only from an unsupported code (R91). It does not look at this unit's
address, so what it says of a request to this unit it says of every request. -/
theorem not_supported_of_parseRequest {c : Config} {u u' code fc : Byte} {rest payload : List Byte}
    (h : parseRequest c u (fc :: rest) = .ok (.illegalFunction u' code payload)) : ¬ c.supported fc := by
  have hcarries : Carries { c with unitAddress := u } .request u (fc :: rest) (.illegalFunction u' code payload) :=
    carries_of_parseRequest h
  have hcode : code :: payload = fc :: rest := hcarries.pdu
  have hwf := hcarries.wellFormed rfl
  simp only [Instr.wellFormed, Bool.and_eq_true, decide_eq_true_eq] at hwf
  obtain ⟨-, hunsupported⟩ := hwf
  obtain ⟨rfl, -⟩ := List.cons.inj hcode
  exact hunsupported

/-- No sequence of a known length decodes to the row for unsupported codes. -/
theorem decode_ne_illegalFunction {c : Config} {f : List Byte} {n : Nat} (hlen : expectedLen c f = some (.known n))
    (u code : Byte) (payload : List Byte) : decode c .request f ≠ .ok (.illegalFunction u code payload) := by
  intro h
  obtain ⟨u', _ | ⟨fc, rest⟩, hp, rfl, hparse⟩ := decode_eq_ok_iff.mp h
  · exact hp rfl
  · exact not_supported_of_parseRequest hparse (supported_of_expectedLen hlen)

/-- From `s` to `t` something was logged or nothing, but no IllegalFunction exception. -/
def LogsNoIllegalFunction (s t : State) : Prop :=
  ∃ es, t.evlog = s.evlog ++ es ∧ ∀ fc, LogEntry.protoExc fc .illegalFunction ∉ es

theorem logsNoIllegalFunction_of_evlog_eq {s t : State} (h : t.evlog = s.evlog) : LogsNoIllegalFunction s t :=
  ⟨[], by rw [h, List.append_nil], fun _ => List.not_mem_nil⟩

theorem exec_logsNoIllegalFunction {i : Instr} {s t : State} (h : exec i s = .next t)
    (hrow : ∀ u code payload, i ≠ .illegalFunction u code payload) : LogsNoIllegalFunction s t := by
  obtain ⟨es, hlog, hprefix⟩ := evlog_of_responded (responded_of_exec h)
  exact ⟨es, hlog, fun fc hmem => (effectKind_of_effect i s).illegalFunction_not_mem_logs hrow fc (hprefix.subset hmem)⟩

/-- The frames a byte completes have a known length, so none is of the row for unsupported codes; a framing error is no
exception. -/
theorem rxEffect_logsNoIllegalFunction {b : Byte} {s t : State} (h : RxEffect b s t) : LogsNoIllegalFunction s t := by
  cases h with
  | started | selected | accumulated => exact logsNoIllegalFunction_of_evlog_eq rfl
  | executed hst hcap hlen i u hi hu =>
    have hrow : ∀ u code payload, i ≠ .illegalFunction u code payload := fun u code payload hrow =>
      decode_ne_illegalFunction hlen u code payload (hrow ▸ hi)
    exact exec_logsNoIllegalFunction (s := { s with buf := s.buf ++ [b] }) (t := u) hu hrow
  | mismatched | unsupported | corrupted => exact ⟨[.discard _], rfl, by simp⟩

theorem workerEffect_logsNoIllegalFunction {s t : State} (h : WorkerEffect s t) : LogsNoIllegalFunction s t := by
  cases h with
  | idle | stopped | timedOut | closed => exact logsNoIllegalFunction_of_evlog_eq rfl
  | byte b t hrun hstop hrx ht => exact rxEffect_logsNoIllegalFunction (s := unitTaken s) ht

/-- Of the agents other than reset only the worker logs. -/
theorem step_logsNoIllegalFunction {s t : State} (h : step s = .next t) (hturn : nextTurn s ≠ .reset) :
    LogsNoIllegalFunction s t := by
  obtain ⟨-, ⟨-, hw⟩ | ⟨call, -, rfl⟩ | ⟨hreset, -⟩ | ⟨-, rfl⟩⟩ := step_cases h
  · exact workerEffect_logsNoIllegalFunction (s := turnTaken s) hw
  · obtain ⟨-, -, -, -, -, hlog, -⟩ := hostStep_frame call (turnTaken s)
    exact logsNoIllegalFunction_of_evlog_eq hlog
  · exact absurd hreset hturn
  · exact logsNoIllegalFunction_of_evlog_eq rfl

/-- Settles O20: the row's own effect, `decode_ne_illegalFunction`, and `step_logsNoIllegalFunction`. -/
theorem illegalFunctionIsAnsweredByTheDispatcherAlone :
    Obligations.IllegalFunctionIsAnsweredByTheDispatcherAlone := by
  refine ⟨fun u code payload s hok => exec_of_succeeds hok _, fun s b n hlen => decode_ne_illegalFunction hlen,
    fun s t h hturn fc hmem => ?_⟩
  obtain ⟨es, hlog, hnone⟩ := step_logsNoIllegalFunction h hturn
  rw [hlog, List.drop_left] at hmem
  exact hnone fc hmem

end Sys2Proof.Proofs
end

section
/-! PROOFS. The agents' steps (spec/43_host_and_control.md): the host's calls, the worker's iteration, where the choices
of the environment come from, and what a run does while nobody has a turn and once a stop is requested. -/

namespace Sys2Proof.Proofs

open Sys2Proof Sys2Proof.Machine

section

variable {s : State}

/-! ### The environment's next choice -/

theorem nextTurn_of_unlisted (h : s.turns = []) : nextTurn s = Config.freeTurn s.turnCount := by
  rw [nextTurn, h, List.headD_nil]

theorem nextTurn_of_listed {t : Turn} {ts : List Turn} (h : s.turns = t :: ts) : nextTurn s = t := by
  rw [nextTurn, h, List.headD_cons]

theorem turnTaken_of_unlisted (h : s.turns = []) : turnTaken s = { s with turnCount := s.turnCount + 1 } := by
  simp only [turnTaken, h, List.tail_nil]

theorem turnTaken_of_listed {t : Turn} {ts : List Turn} (h : s.turns = t :: ts) :
    turnTaken s = { s with turns := ts, turnCount := s.turnCount + 1 } := by
  simp only [turnTaken, h, List.tail_cons]

theorem nextUnit_of_unlisted (h : s.rx = []) : nextUnit s = Config.freeUnit s.rxCount := by
  rw [nextUnit, h, List.headD_nil]

theorem unitTaken_of_unlisted (h : s.rx = []) : unitTaken s = { s with rxCount := s.rxCount + 1 } := by
  simp only [unitTaken, h, List.tail_nil]

theorem nextResult_of_unlisted (h : s.txResults = []) : nextResult s = Config.freeResult s.txCount := by
  rw [nextResult, h, List.headD_nil]

theorem resultTaken_of_unlisted (h : s.txResults = []) : resultTaken s = { s with txCount := s.txCount + 1 } := by
  simp only [resultTaken, h, List.tail_nil]

/-! ### The step of each agent -/

theorem step_of_worker (hlegal : s.cfg.legal) (hturn : nextTurn s = .worker) :
    step s = workerIteration (turnTaken s) := by
  rw [step_of_legal hlegal, hturn, takeTurn]

theorem step_of_host {call : HostCall} (hlegal : s.cfg.legal) (hturn : nextTurn s = .host call) :
    step s = .next (hostStep call (turnTaken s)) := by
  rw [step_of_legal hlegal, hturn, takeTurn]

theorem step_of_idle (hlegal : s.cfg.legal) (hturn : nextTurn s = .idle) : step s = .next (turnTaken s) := by
  rw [step_of_legal hlegal, hturn, takeTurn]

/-- A requested stop comes before the read (R205). -/
theorem step_of_stopRequested (hlegal : s.cfg.legal) (hrun : s.run = .running) (hstop : s.stopReq = true)
    (hturn : nextTurn s = .worker) : step s = .next { turnTaken s with run := .stopped } :=
  (step_of_worker hlegal hturn).trans (workerIteration_of_effect (.stopped hrun hstop))

/-! ### The worker's read and the write of a response -/

/-- A worker that reads a byte gives it to the assembler. -/
theorem workerIteration_of_byte {b : Byte} (hrun : s.run = .running) (hstop : s.stopReq = false)
    (hunit : nextUnit s = .byte b) : workerIteration s = rxByte b (unitTaken s) := by
  simp [workerIteration, workerEnabled, hrun, hstop, hunit]

/-- The worker's iteration where no unit is listed. -/
theorem workerIteration_of_unlisted (hrun : s.run = .running) (hstop : s.stopReq = false) (hrx : s.rx = []) :
    workerIteration s =
      match Config.freeUnit s.rxCount with
      | .byte b => rxByte b { s with rxCount := s.rxCount + 1 }
      | .timeout => .next { s with rxCount := s.rxCount + 1 }
      | .closed => .next { s with rxCount := s.rxCount + 1, run := .linkFailed } := by
  have hunit := nextUnit_of_unlisted hrx
  rcases hfree : Config.freeUnit s.rxCount with b | _ | _ <;> rw [hfree] at hunit
  · rw [workerIteration_of_byte hrun hstop hunit, unitTaken_of_unlisted hrx]
  · rw [workerIteration_of_effect (.timedOut hrun hstop hunit), unitTaken_of_unlisted hrx]
  · rw [workerIteration_of_effect (.closed hrun hstop hunit), unitTaken_of_unlisted hrx]

/-- `Send` where no write result is listed. -/
theorem send_of_unlisted (resp : List Byte) (h : s.txResults = []) :
    send resp s =
      match Config.freeResult s.txCount with
      | .ok => (true, { s with tx := s.tx ++ resp, txCount := s.txCount + 1 })
      | .fail k => (false, { s with tx := s.tx ++ failedPrefix k resp, txCount := s.txCount + 1, run := .linkFailed }) := by
  have hresult := nextResult_of_unlisted h
  rcases hfree : Config.freeResult s.txCount with _ | k <;> rw [hfree] at hresult
  · rw [send_of_succeeds (writeSucceeds_iff.mpr hresult), resultTaken_of_unlisted h]
  · rw [send_of_fails hresult, resultTaken_of_unlisted h]

/-! ### The host's calls -/

theorem hostGet_of_ok {a n : Word} {vs : List Word} (h : storeRead s.cfg s.x a n = .ok vs) :
    hostGet a n s = returnToHost (.cells vs) s := by
  simp only [hostGet, h]

theorem hostGet_of_outOfRange {a n : Word} (h : storeRead s.cfg s.x a n = .outOfRange) :
    hostGet a n s = returnToHost .outOfRange s := by
  simp only [hostGet, h]

theorem hostSet_of_ok {a v : Word} {m : Memory} (h : storeWriteOne s.cfg s.x a v = .ok m) :
    hostSet a v s = returnToHost .done { s with x := m } := by
  simp only [hostSet, h]

theorem hostSet_of_outOfRange {a v : Word} (h : storeWriteOne s.cfg s.x a v = .outOfRange) :
    hostSet a v s = returnToHost .outOfRange s := by
  simp only [hostSet, h]

theorem hostSetMany_of_ok {a : Word} {vs : List Word} {m : Memory} (h : storeWriteMany s.cfg s.x a vs = .ok m) :
    hostSetMany a vs s = returnToHost .done { s with x := m } := by
  simp only [hostSetMany, h]

theorem hostSetMany_of_outOfRange {a : Word} {vs : List Word} (h : storeWriteMany s.cfg s.x a vs = .outOfRange) :
    hostSetMany a vs s = returnToHost .outOfRange s := by
  simp only [hostSetMany, h]

/-- A stop request stays set whatever a host calls (R204). -/
theorem hostStep_stopReq {call : HostCall} (h : s.stopReq = true) : (hostStep call s).stopReq = true := by
  rcases hostStep_cases call s with ⟨heq, -⟩ | ⟨r, m, heq, -⟩ <;> rw [heq]
  exact h

/-- Whose turns come is read from two components, which no host call touches. -/
theorem turnAt_hostStep (call : HostCall) (s : State) (k : Nat) : turnAt (hostStep call s) k = turnAt s k := by
  obtain ⟨-, -, -, -, -, -, hturns, -, -, hcount, -⟩ := hostStep_frame call s
  rw [turnAt, turnAt, hturns, hcount]

end

/-! ### Turns of nobody -/

/-- Settles O38, by induction on the number of turns: the first is used up, and the others are nobody's still. -/
theorem turnsOfNobodyChangeNothing : Obligations.TurnsOfNobodyChangeNothing := by
  intro n
  induction n with
  | zero => exact fun s _ _ => run_zero s
  | succ n ih =>
    intro s hlegal hidle
    have hfirst : step s = .next (turnTaken s) := step_of_idle hlegal (hidle 0 n.succ_pos)
    have hrest : ∀ j < n, turnAt (turnTaken s) j = .idle := fun j hj => by
      rw [turnAt_turnTaken]
      exact hidle (j + 1) (Nat.succ_lt_succ hj)
    rw [run_succ hfirst, ih (turnTaken s) hlegal hrest]
    simp [turnTaken, Nat.add_assoc, Nat.add_comm 1 n]

/-! ### The stop request is acted on -/

section

variable {s t : State}

/-- `t` has from `s` the assembler, what was sent and logged, and what is still to be read: no worker iteration and no
reset has touched them. -/
structure WorkerUntouched (s t : State) : Prop where
  st : t.st = s.st
  buf : t.buf = s.buf
  tx : t.tx = s.tx
  evlog : t.evlog = s.evlog
  rx : t.rx = s.rx
  rxCount : t.rxCount = s.rxCount

theorem WorkerUntouched.trans {u : State} (h : WorkerUntouched s t) (h' : WorkerUntouched t u) :
    WorkerUntouched s u where
  st := h'.st.trans h.st
  buf := h'.buf.trans h.buf
  tx := h'.tx.trans h.tx
  evlog := h'.evlog.trans h.evlog
  rx := h'.rx.trans h.rx
  rxCount := h'.rxCount.trans h.rxCount

theorem workerUntouched_turnTaken (s : State) : WorkerUntouched s (turnTaken s) :=
  ⟨rfl, rfl, rfl, rfl, rfl, rfl⟩

theorem workerUntouched_hostStep (call : HostCall) (s : State) : WorkerUntouched s (hostStep call s) := by
  obtain ⟨-, hst, hbuf, htx, -, hlog, -, hrx, -, -, hrxCount, -⟩ := hostStep_frame call s
  exact ⟨hst, hbuf, htx, hlog, hrx, hrxCount⟩

/-- The running worker of a legal instance has a stop request to act on. -/
structure StopPending (s : State) : Prop where
  legal : s.cfg.legal
  running : s.run = .running
  requested : s.stopReq = true

theorem stopPending_turnTaken (h : StopPending s) : StopPending (turnTaken s) :=
  ⟨h.legal, h.running, h.requested⟩

theorem stopPending_hostStep (h : StopPending s) (call : HostCall) : StopPending (hostStep call s) := by
  obtain ⟨hcfg, -, -, -, hrun, -⟩ := hostStep_frame call s
  exact ⟨hcfg ▸ h.legal, hrun.trans h.running, hostStep_stopReq h.requested⟩

/-- A turn of a host or of nobody leaves the stop pending and the worker alone, and uses up one turn. -/
theorem StopPending.step_of_others (h : StopPending s) (hworker : nextTurn s ≠ .worker)
    (hreset : nextTurn s ≠ .reset) :
    ∃ t, step s = .next t ∧ StopPending t ∧ WorkerUntouched s t ∧ ∀ k, turnAt t k = turnAt s (k + 1) := by
  rcases hturn : nextTurn s with _ | call | _ | _
  · exact absurd hturn hworker
  · exact ⟨_, step_of_host h.legal hturn, stopPending_hostStep (stopPending_turnTaken h) call,
      (workerUntouched_turnTaken s).trans (workerUntouched_hostStep call _),
      fun k => (turnAt_hostStep call _ k).trans (turnAt_turnTaken s k)⟩
  · exact absurd hturn hreset
  · exact ⟨_, step_of_idle h.legal hturn, stopPending_turnTaken h, workerUntouched_turnTaken s, turnAt_turnTaken s⟩

/-- The run from `s` comes to a stop with nothing read, sent or logged on the way. -/
def ComesToStop (s : State) : Prop :=
  ∃ k t, Sys2Proof.core.run k s = .next t ∧ t.run = .stopped ∧ t.stopReq = true ∧ WorkerUntouched s t

/-- The worker's own turn acts on the request. -/
theorem StopPending.comesToStop_of_worker (h : StopPending s) (hturn : nextTurn s = .worker) : ComesToStop s :=
  have hstep := step_of_stopRequested h.legal h.running h.requested hturn
  ⟨1, _, (run_succ hstep).trans (run_zero _), rfl, h.requested, rfl, rfl, rfl, rfl, rfl, rfl⟩

theorem ComesToStop.of_step (hstep : step s = .next t) (hsame : WorkerUntouched s t) (h : ComesToStop t) :
    ComesToStop s := by
  obtain ⟨k, u, hrun, hstopped, hstop, hsame'⟩ := h
  exact ⟨k + 1, u, (run_succ hstep).trans hrun, hstopped, hstop, hsame.trans hsame'⟩

/-- By induction on the turns before the one known to be the worker's; an earlier one may be the worker's too. -/
theorem StopPending.comesToStop {k : Nat} (h : StopPending s) (hworker : turnAt s k = .worker)
    (hreset : ∀ j < k, turnAt s j ≠ .reset) : ComesToStop s := by
  induction k generalizing s with
  | zero => exact h.comesToStop_of_worker hworker
  | succ k ih =>
    by_cases hturn : nextTurn s = .worker
    · exact h.comesToStop_of_worker hturn
    · obtain ⟨t, hstep, hpending, hsame, hlater⟩ := h.step_of_others hturn (hreset 0 k.succ_pos)
      have hreset' : ∀ j < k, turnAt t j ≠ .reset := fun j hj => by
        rw [hlater]
        exact hreset (j + 1) (Nat.succ_lt_succ hj)
      exact .of_step hstep hsame (ih hpending ((hlater k).trans hworker) hreset')

end

/-- Settles O39: the named assumption is what `StopPending.comesToStop` asks of the turns. -/
theorem stopIsActedOnWhenTheWorkerSteps : Obligations.StopIsActedOnWhenTheWorkerSteps := by
  rintro s hlegal hrun hstop ⟨k, hworker, hreset⟩
  have hpending : StopPending s := ⟨hlegal, hrun, hstop⟩
  obtain ⟨n, t, hreached, hstopped, hstop', hsame⟩ := hpending.comesToStop hworker hreset
  exact ⟨n, t, hreached, hstopped, hstop', hsame.st, hsame.buf, hsame.tx, hsame.evlog, hsame.rx, hsame.rxCount⟩

/-! ### The worker's iteration and the free choices -/

/-- Settles O35, the read case by case. -/
theorem workerIterationByWhatIsRead : Obligations.WorkerIterationByWhatIsRead := by
  intro s hlegal hrun hturn
  refine ⟨fun hstop => step_of_stopRequested hlegal hrun hstop hturn, fun hstop => ?_⟩
  rcases hunit : nextUnit s with b | _ | _
  · exact step_of_byte hlegal hrun hstop hturn hunit
  · exact (step_of_worker hlegal hturn).trans (workerIteration_of_effect (.timedOut hrun hstop hunit))
  · exact (step_of_worker hlegal hturn).trans (workerIteration_of_effect (.closed hrun hstop hunit))

/-- Settles O37: turn, read and write result each by the rule for where nothing is listed. -/
theorem nothingListedIsAFreeChoice : Obligations.NothingListedIsAFreeChoice := by
  intro s hlegal
  refine ⟨fun hturns => ?_, fun t ts hturns => ?_, workerIteration_of_unlisted, send_of_unlisted⟩
  · rw [step_of_legal hlegal, nextTurn_of_unlisted hturns, turnTaken_of_unlisted hturns]
  · rw [step_of_legal hlegal, nextTurn_of_listed hturns, turnTaken_of_listed hturns]

/-! ### The host port -/

/-- Settles O40: what the store's read answers is O31. -/
theorem hostReadReturnsTheCells : Obligations.HostReadReturnsTheCells := by
  intro s a n hlegal hturn
  have hread := storeReadGivesTheCells s.cfg s.x a n
  rw [step_of_host hlegal hturn]
  split at hread
  next hout =>
    rw [if_pos hout]
    exact congrArg _ (hostGet_of_outOfRange (s := turnTaken s) hread)
  next hin =>
    rw [if_neg hin]
    exact congrArg _ (hostGet_of_ok (s := turnTaken s) hread)

/-- Settles O41: what the store's single write does is O32. -/
theorem hostWriteChangesOneCell : Obligations.HostWriteChangesOneCell := by
  intro s a v hlegal hwf hturn
  obtain ⟨hrefused, hwritten⟩ := storeWriteOneChangesOneCell s.cfg s.x a v hwf
  rw [step_of_host hlegal hturn]
  refine ⟨fun hout => ?_, fun hin => ?_⟩
  · exact congrArg _ (hostSet_of_outOfRange (s := turnTaken s) (hrefused (Nat.lt_succ_of_le hout)))
  · obtain ⟨m, hok, hcells⟩ := hwritten hin
    exact ⟨m, congrArg _ (hostSet_of_ok (s := turnTaken s) hok), hcells⟩

/-- Settles O42: what the store's multiple write does is O33. -/
theorem hostMultipleWriteIsOneStep : Obligations.HostMultipleWriteIsOneStep := by
  intro s a vs hlegal hwf hturn
  obtain ⟨hrefused, hwritten⟩ := storeWriteManyChangesExactlyItsCells s.cfg s.x a vs hwf
  rw [step_of_host hlegal hturn]
  refine ⟨fun hout => ?_, fun hin => ?_⟩
  · exact congrArg _ (hostSetMany_of_outOfRange (s := turnTaken s) (hrefused hout))
  · obtain ⟨m, hok, hcells⟩ := hwritten hin
    exact ⟨m, congrArg _ (hostSetMany_of_ok (s := turnTaken s) hok), hcells⟩

/-- Settles O43: the stop call is `setStopRequest`. -/
theorem hostStopSetsTheFlag : Obligations.HostStopSetsTheFlag :=
  fun _ hlegal hturn => step_of_host hlegal hturn

/-- Settles O44: a host's step is total, and `hostStep_frame` says what it leaves alone. -/
theorem hostStepsLeaveTheWorkerAlone : Obligations.HostStepsLeaveTheWorkerAlone := by
  intro s call hlegal hturn
  obtain ⟨-, hst, hbuf, htx, hrun, -⟩ := hostStep_frame call (turnTaken s)
  exact ⟨_, step_of_host hlegal hturn, hst, hbuf, htx, hrun⟩

end Sys2Proof.Proofs
end

section
/-! PROOFS. Errors (spec/60_exceptions.md): a protocol exception is one logged entry and one frame, with the registers as
they were, and no error stops the machine. -/

namespace Sys2Proof.Proofs

open Sys2Proof Sys2Proof.Machine

/-! ### Protocol exceptions (R166, R231) -/

/-- An effect that logs a protocol exception is that exception and nothing else: an answered request logs its
notification, a response row nothing. -/
theorem EffectKind.eq_excEffect_of_mem_logs {i : Instr} {s : State} {e : Effect} {fc : Byte} {r : Reason}
    (h : EffectKind i s e) (hmem : LogEntry.protoExc fc r ∈ e.always ++ e.ifSent) : e = excEffect fc r s := by
  cases h with
  | refused fc' r' =>
    obtain ⟨rfl, rfl⟩ : fc = fc' ∧ r = r' := by simpa [excEffect] using hmem
    rfl
  | answered | response => simp at hmem

/-- Settles O28: the new log entry is one of the effect's, so the effect is the exception's; a failed write, which cuts
its frame short, is ruled out in the last clause alone. -/
theorem protocolExceptionsChangeNoRegister : Obligations.ProtocolExceptionsChangeNoRegister := by
  intro i s t fc r h hmem
  have hresponded := responded_of_exec h
  obtain ⟨es, hlog, hprefix⟩ := evlog_of_responded hresponded
  rw [hlog, List.drop_left] at hmem
  rw [(effectKind_of_effect i s).eq_excEffect_of_mem_logs (hprefix.subset hmem)] at hresponded
  rcases hresponded with ⟨-, rfl⟩ | ⟨k, hfail, rfl⟩
  · exact ⟨rfl, rfl, fun _ => ⟨rfl, rfl⟩⟩
  · refine ⟨rfl, rfl, fun hok => ?_⟩
    simp [writeSucceeds_eq_false_iff.mpr ⟨k, hfail⟩] at hok

/-! ### No error stops the machine (R238) -/

/-- From the invariant every byte is taken, in each state of the assembler: while accumulating there is room for it and
a length is defined (`accumulatingByte`). -/
theorem exists_rxByte_eq_next {s : State} (hs : Invariant s) (b : Byte) : ∃ t, rxByte b s = .next t := by
  obtain ⟨hlegal, -, -, hasm⟩ := id hs
  rcases hst : s.st with _ | _ | _
  · have hbuf := (assemblerInv_of_awaitAddress hst).mp hasm
    obtain ⟨hmatch, hmismatch, -⟩ := addressByteIsTested s b hlegal hst hbuf
    by_cases hb : b = s.cfg.unitAddress
    · exact ⟨_, hmatch hb⟩
    · exact ⟨_, hmismatch hb⟩
  · have hbuf := (assemblerInv_of_awaitOperationCode hst).mp hasm
    obtain ⟨hsupported, hunsupported⟩ := operationCodeIsTested s b hlegal hst hbuf
    by_cases hb : s.cfg.supported b
    · exact ⟨_, hsupported hb⟩
    · exact ⟨_, hunsupported hb⟩
  · obtain ⟨hincomplete, hcorrupted, hverified⟩ := accumulatingByte s b hs hst
    by_cases hlen : expectedLen s.cfg (s.buf ++ [b]) = some (.known (s.buf.length + 1))
    · rcases hverify : verify s.cfg (s.buf ++ [b]) with _ | _
      · exact ⟨_, hcorrupted hlen hverify⟩
      · obtain ⟨i, t, -, -, -, -, hnext⟩ := hverified hlen hverify
        exact ⟨_, hnext⟩
    · exact ⟨_, hincomplete hlen⟩

/-- From the invariant every worker iteration answers a next state: of what the worker can find to do, only taking a byte
needs the invariant. -/
theorem exists_workerIteration_eq_next {s : State} (hs : Invariant s) : ∃ t, workerIteration s = .next t := by
  by_cases hrun : s.run = .running
  · rcases hstop : s.stopReq with _ | _
    · rcases hunit : nextUnit s with b | _ | _
      · rw [workerIteration_of_byte hrun hstop hunit]
        exact exists_rxByte_eq_next (s := unitTaken s) hs b
      · exact ⟨_, workerIteration_of_effect (.timedOut hrun hstop hunit)⟩
      · exact ⟨_, workerIteration_of_effect (.closed hrun hstop hunit)⟩
    · exact ⟨_, workerIteration_of_effect (.stopped hrun hstop)⟩
  · exact ⟨_, workerIteration_of_effect (.idle hrun)⟩

/-- Settles O50, agent by agent: the instance is legal, and only the worker's step could stop at all. -/
theorem noStepFromAnInvariantStateStops : Obligations.NoStepFromAnInvariantStateStops := by
  intro s hs
  obtain ⟨hlegal, -⟩ := id hs
  rcases hturn : nextTurn s with _ | call | _ | _
  · rw [step_of_worker hlegal hturn]
    exact exists_workerIteration_eq_next (s := turnTaken s) hs
  · exact ⟨_, step_of_host hlegal hturn⟩
  · exact ⟨resetStep (turnTaken s), by rw [step_of_legal hlegal, hturn, takeTurn]⟩
  · exact ⟨_, step_of_idle hlegal hturn⟩

end Sys2Proof.Proofs
end

section
/-! PROOFS. Reset and hazards (spec/70_reset_and_hazards.md): the reset step, and what a doubled address byte comes to. -/

namespace Sys2Proof.Proofs

open Sys2Proof Sys2Proof.Machine

/-! ### The reset step (R260) -/

theorem step_of_reset {s : State} (hlegal : s.cfg.legal) (hturn : nextTurn s = .reset) :
    step s = .next (resetStep (turnTaken s)) := by
  rw [step_of_legal hlegal, hturn, takeTurn]

/-- Settles O45: the step is `resetStep`, which sets each component. -/
theorem resetStepSetsEveryComponent : Obligations.ResetStepSetsEveryComponent :=
  fun _ hlegal hturn => ⟨_, step_of_reset hlegal hturn, rfl, rfl, rfl, rfl, rfl, rfl, rfl, rfl⟩

/-! ### A doubled address byte (R269) -/

/-- The unit address on the line starts a candidate frame. -/
theorem step_of_unitAddress_on_line {s : State} {left : List Byte} {rest : List RxUnit} {ts : List Turn}
    (hline : OnTheLine (s.cfg.unitAddress :: left) rest ts s) (hst : s.st = .awaitAddress) (hbuf : s.buf = []) :
    step s = .next (midFrame [s.cfg.unitAddress] s) := by
  have hstep := hline.step_midFrame (got := [])
  rw [midFrame_nil hst hbuf] at hstep
  exact hstep.trans (rxByte_of_effect (.started rfl rfl))

/-- An unsupported code after the unit address drops the candidate frame. -/
theorem step_of_unsupportedCode_on_line {s : State} {b : Byte} {left : List Byte} {rest : List RxUnit} {ts : List Turn}
    (hline : OnTheLine (s.cfg.unitAddress :: b :: left) rest ts s) (hst : s.st = .awaitAddress) (hbuf : s.buf = [])
    (hb : ¬ s.cfg.supported b) :
    step (midFrame [s.cfg.unitAddress] s) =
      .next (logEvent (.discard .unsupportedCode) (unitsTaken [s.cfg.unitAddress, b] s)) := by
  have hclear : clearFrame (unitsTaken [s.cfg.unitAddress, b] s) = unitsTaken [s.cfg.unitAddress, b] s :=
    clearFrame_eq_self hst hbuf
  have hstep := hline.step_midFrame (got := [s.cfg.unitAddress])
  rw [hstep, ← hclear]
  exact rxByte_of_effect (.unsupported rfl hb)

/-- Settles O16: the first address byte starts a candidate frame, and the second, taken as its operation code, is no
supported one and drops it. -/
theorem doubledAddressByteIsLost : Obligations.DoubledAddressByteIsLost := by
  intro s us ts hlegal hrun hstop hst hbuf hcode hrx hturns
  have hline : OnTheLine [s.cfg.unitAddress, s.cfg.unitAddress] us ts s := ⟨hlegal, hrun, hstop, hrx, hturns⟩
  rw [run_succ (step_of_unitAddress_on_line hline hst hbuf),
    run_succ (step_of_unsupportedCode_on_line hline hst hbuf hcode), run_zero]
  simp [unitsTaken, logEvent, hrx, hturns]

end Sys2Proof.Proofs
end
